-- ==== Sys2Proof/Word.lean ====
section
/-! DEFINITION. The two widths of the block (R5): the 8-bit byte and the 32-bit word. Every value is
unsigned (R6), and the sums, differences and logical shifts of R7 are those of `BitVec`. -/

namespace Sys2Proof

/-- `BYTE`, 8 bits (R5). -/
abbrev Byte := BitVec 8

/-- `W`, a 32-bit word (R5). -/
abbrev Word := BitVec 32

end Sys2Proof
end

