-- ==== Sys2Proof/Config.lean ====
section
/-! DEFINITION. The implementation parameters of R5 that a rule names, with the value this hardware takes.
There is no free value: nothing in the block is non-deterministic (R9). The two parameters of R5 that choose
between designs, `SALSA_TAIL` (discarded) and `ISAAC_WORD_ORDER` (ascending), are built into the Salsa20
transform and the ISAAC draw (log entry 10). -/

namespace Sys2Proof.Config

/-- `ARC4_KEY_MIN`, in bytes. -/
abbrev arc4KeyMin : Nat := 5

/-- `ARC4_KEY_MAX`, in bytes. -/
abbrev arc4KeyMax : Nat := 256

/-- `SALSA_BLOCK`, the bytes of one keystream block. -/
abbrev salsaBlock : Nat := 64

/-- `SALSA_NONCE_LEN`, in bytes. -/
abbrev salsaNonceLen : Nat := 8

/-- `XXTEA_KEY_LEN`, in bytes. -/
abbrev xxteaKeyLen : Nat := 16

/-- `XXTEA_DELTA` (R170). -/
abbrev xxteaDelta : Word := 0x9E3779B9#32

/-- `GOLDEN` (R190), the same number as `XXTEA_DELTA` (UNVERIFIED, log entry 9). -/
abbrev isaacGolden : Word := 0x9E3779B9#32

/-- `ISAAC_SEED_MAX`, in bytes. -/
abbrev isaacSeedMax : Nat := 1024

/-- `LEN_BITS = 16`: one command carries at most 65535 payload bytes. -/
abbrev lenBits : Nat := 16

end Sys2Proof.Config
end

