-- ==== Sys2Proof/Machine/Operands.lean ====
section
/-! DEFINITION. The operand forms: how bytes become words and words become bytes (R8, R61), the rotation of R7,
and the byte-wise exclusive OR of the stream ciphers (R227). -/

namespace Sys2Proof.Machine

/-- `le32` (R8): four bytes to one word, the first byte least significant. -/
def le32 (b0 b1 b2 b3 : Byte) : Word :=
  BitVec.ofNat 32 (b0.toNat + 2 ^ 8 * b1.toNat + 2 ^ 16 * b2.toNat + 2 ^ 24 * b3.toNat)

/-- A word from its bits 31:24, 23:16 and 15:0: the shape of `W0` (R91) and of `RESP` (R95). -/
def fields32 (hi mid : Byte) (low : BitVec 16) : Word :=
  BitVec.ofNat 32 (2 ^ 24 * hi.toNat + 2 ^ 16 * mid.toNat + low.toNat)

/-- Bits `8k+7 : 8k` of a word. -/
def byteOf (w : Word) (k : Nat) : Byte := w.extractLsb' (8 * k) 8

/-- `bytes_le32` (R8): one word to four bytes, in stream order. -/
def bytesLe32 (w : Word) : List Byte := [byteOf w 0, byteOf w 1, byteOf w 2, byteOf w 3]

/-- `words_le` (R8): a byte string whose length is a multiple of 4 to its words. The rules use it on no other length;
up to three bytes past the last whole word would be dropped. -/
def wordsLe : List Byte → List Word
  | b0 :: b1 :: b2 :: b3 :: rest => le32 b0 b1 b2 b3 :: wordsLe rest
  | _ => []

/-- `ser_le` (R8): a list of words to its byte string. -/
def serLe : List Word → List Byte
  | [] => []
  | w :: ws => bytesLe32 w ++ serLe ws

/-- A payload packed four bytes to a word, the last word padded with zero bytes (R93, the 32-bit port). -/
def packLe : List Byte → List Word
  | [] => []
  | [b0] => [le32 b0 0 0 0]
  | [b0, b1] => [le32 b0 b1 0 0]
  | [b0, b1, b2] => [le32 b0 b1 b2 0]
  | b0 :: b1 :: b2 :: b3 :: rest => le32 b0 b1 b2 b3 :: packLe rest

/-- `rotl32` (R7), for `1 ≤ n ≤ 31`. -/
def rotl32 (v : Word) (n : Nat) : Word := (v <<< n) ||| (v >>> (32 - n))

/-- Exclusive OR byte by byte, same index in and out (R227); the result is as long as the shorter list. -/
def xorBytes (as bs : List Byte) : List Byte := List.zipWith (· ^^^ ·) as bs

end Sys2Proof.Machine
end

