-- ==== Sys2Proof/Machine/State.lean ====
section
/-! DEFINITION. The state of the block, as plain data (R20 to R36), with the two directions of its command port
beside it, and the state after reset (R271). -/

namespace Sys2Proof.Machine

/-- The values of `ALG` (R21). Values 5 to 7 are never held (`93_implementation_defined.md` U1). -/
inductive Alg where
  | none | arc4 | salsa20 | xxtea | isaac
  deriving DecidableEq, Repr

/-- The ARC4 context (R25): the permutation `S` and the two running indices. -/
structure Arc4Ctx where
  S : Vector Byte 256
  I : Byte
  J : Byte
  deriving DecidableEq, Repr

/-- The Salsa20 context (R26): the 16-word matrix and the round count. `X[8]`, `X[9]` are the block counter. -/
structure SalsaCtx where
  X : Vector Word 16
  ROUNDS : BitVec 5
  deriving DecidableEq, Repr

/-- The XXTEA context (R27): the four key words. -/
structure XxteaCtx where
  K : Vector Word 4
  deriving DecidableEq, Repr

/-- The ISAAC context (R28): the memory, the results, the three scalars, the countdown of words left in `RSL`, and
the bytes of the last drawn word not yet delivered, oldest first. -/
structure IsaacCtx where
  MM : Vector Word 256
  RSL : Vector Word 256
  AA : Word
  BB : Word
  CC : Word
  CNT : BitVec 9
  OBUF : List Byte
  deriving DecidableEq, Repr

/-- `(ALG, CTX)` (R20): the constructor is the tag, and only the tagged context exists ("the simplest faithful model
makes `CTX` a sum type whose `NONE` case has no fields", R32). -/
inductive Ctx where
  | none
  | arc4 (c : Arc4Ctx)
  | salsa20 (c : SalsaCtx)
  | xxtea (c : XxteaCtx)
  | isaac (c : IsaacCtx)
  deriving DecidableEq, Repr

/-- The status names of R96. -/
inductive Status where
  | ok | invalidKey | invalidParameter | invalidSeed | errOpcode | errPhase | errFormat
  deriving DecidableEq, Repr

/-- One response (R95): the status, and the payload of a completed command. -/
structure Response where
  status : Status
  payload : List Byte
  deriving DecidableEq, Repr

/-- The two moves of the host (R281), the command cut into the bytes that carry it (R93). -/
inductive PortEvent where
  /-- One byte sent to the command port. -/
  | byte (b : Byte)
  /-- The reset input asserted (R270). -/
  | reset
  deriving DecidableEq, Repr

/-- The machine. `ctx` is the whole state the spec gives the block. `port` and `sent` are the model's own: the
host's moves not taken yet, oldest first (log entry 1), and the responses delivered so far, oldest first (log
entry 2). -/
structure State where
  ctx : Ctx
  port : List PortEvent
  sent : List Response
  deriving DecidableEq, Repr

/-- No fault exists: a run "cannot fault in the processor sense" (R248, R282), and an error is a response, which is a
next state (R251). -/
inductive Fault where
  deriving DecidableEq, Repr

/-- Why a step gives no next state. -/
inductive Refusal where
  /-- No meaning is written for the command of this mnemonic. Raised by no arm of `exec`. Safe. -/
  | notModelled (mnemonic : String)
  /-- Raised by `step` when the port holds the beginning of a command and neither the rest of it nor a reset follows:
  a host that sends fewer bytes than its header announces, a move the model's host does not have (R281,
  `93_implementation_defined.md` U5). Safe (log entry 5). -/
  | incompleteCommand
  deriving DecidableEq, Repr

/-- The state right after reset (R271): `ALG = NONE`, no context, no command and no response pending. -/
def State.reset : State := { ctx := .none, port := [], sent := [] }

end Sys2Proof.Machine
end

