-- ==== Sys2Proof/Machine/Ops.lean ====
section
/-! DEFINITION. The named operations: reading and writing an array entry, the tag, the end of a command (a completed
one and a failed one), the delivery of its response, the response on the port, and the reset input. -/

namespace Sys2Proof.Machine

/-! ### Arrays of 256 entries (`S`, `MM`, `RSL`; R36, R65, R66): an 8-bit index is always in range. -/

/-- Read entry `i`. -/
def rd {α : Type} (m : Vector α 256) (i : Byte) : α := m[i.toNat]'i.isLt

/-- Write entry `i`. -/
def wr {α : Type} (m : Vector α 256) (i : Byte) (x : α) : Vector α 256 := m.set i.toNat x i.isLt

/-- The array whose entry `i` is `f i`. -/
def fill256 {α : Type} (f : Byte → α) : Vector α 256 :=
  ⟨((List.range 256).map fun k => f (BitVec.ofNat 8 k)).toArray, by simp⟩

/-- The indices `0, 1, .., 255` in order. -/
def indices256 : List Byte := (List.range 256).map (BitVec.ofNat 8)

/-! ### The tag -/

/-- `ALG` (R20, R21). -/
def Ctx.alg : Ctx → Alg
  | .none => .none
  | .arc4 _ => .arc4
  | .salsa20 _ => .salsa20
  | .xxtea _ => .xxtea
  | .isaac _ => .isaac

/-- The 3-bit value of `ALG` (R21). -/
def Alg.code : Alg → BitVec 3
  | .none => 0 | .arc4 => 1 | .salsa20 => 2 | .xxtea => 3 | .isaac => 4

/-! ### The end of a command. The spec's `step : State x Command -> State x Response` (R9) is a function from the
context to a pair of context and response. -/

/-- `raise <Status>` (R10, R251): no payload, and no change to the context. It is the block's one exception entry;
nothing is saved and there is no return (R252). -/
def raise (st : Status) (c : Ctx) : Ctx × Response := (c, { status := st, payload := [] })

/-- `respond OK` with a payload, the context becoming `c` (R220 step 5). -/
def complete (c : Ctx) (payload : List Byte) : Ctx × Response := (c, { status := .ok, payload := payload })

/-- Deliver the response and keep the new context: every command gets exactly one response (R95). -/
def deliver (r : Ctx × Response) (s : State) : State := { s with ctx := r.1, sent := s.sent ++ [r.2] }

/-- A command's answer as an outcome of `exec`. -/
def answer (r : Ctx × Response) (s : State) : Host.Outcome State Fault Refusal := .next (deliver r s)

/-- The reset input (R270, R271): no context, no response; what the host had begun to send is gone with the events
the step has taken from the port. -/
def hostReset (s : State) : State := { s with ctx := .none }

/-! ### The response on the port (R95, R96) -/

/-- The codes of R96. -/
def Status.code : Status → Byte
  | .ok => 0x00 | .invalidKey => 0x01 | .invalidParameter => 0x02 | .invalidSeed => 0x03
  | .errOpcode => 0x10 | .errPhase => 0x11 | .errFormat => 0x12

/-- `RESP = (STATUS, 0, RLEN)` (R95). -/
def Response.word (r : Response) : Word := fields32 r.status.code 0 (BitVec.ofNat 16 r.payload.length)

/-- A response on the byte-wide port (R62, R93, R95). -/
def Response.bytes (r : Response) : List Byte := bytesLe32 r.word ++ r.payload

/-- A response on the 32-bit port (R93, R95). -/
def Response.words (r : Response) : List Word := r.word :: packLe r.payload

end Sys2Proof.Machine
end

