-- ==== Sys2Proof/Machine/Flags.lean ====
section
/-! DEFINITION. The block has no flags and no condition codes (R24): its only outcome indicator is the status of a
response. This file holds every computation of a status: the checks of R220, in their order. -/

namespace Sys2Proof.Machine

/-- Step 2: `ARG` must be 0 (every command but `SALSA_INIT`; R100). -/
def argZero (arg : Byte) : Option Status := if arg = 0 then none else some .errFormat

/-- Step 2: `OPERAND` must be 0 (every command but `ARC4_INIT`; R100). -/
def operandZero (operand : Word) : Option Status := if operand = 0 then none else some .errFormat

/-- Step 2: `LEN` must be 0 (`STATUS` and `DISCARD`; R100). -/
def lenZero (len : BitVec 16) : Option Status := if len = 0 then none else some .errFormat

/-- Step 2: `LEN mod 4 = 0` (`XXTEA_ENC` and `XXTEA_DEC`; R64, R246). -/
def wholeWords (len : Nat) : Option Status := if len % 4 = 0 then none else some .errFormat

/-- Step 4, `ARC4_INIT` (R123, R241). -/
def arc4KeyLength (len : Nat) : Option Status :=
  if len < Config.arc4KeyMin ∨ Config.arc4KeyMax < len then some .invalidKey else none

/-- Step 4, `SALSA_INIT`, first test (R148, R241). -/
def salsaKeyLength (len : Nat) : Option Status := if len ≠ 24 ∧ len ≠ 40 then some .invalidKey else none

/-- Step 4, `SALSA_INIT`, second test (R148, R242). -/
def salsaRoundCount (arg : Byte) : Option Status :=
  if arg ≠ 8 ∧ arg ≠ 12 ∧ arg ≠ 20 then some .invalidParameter else none

/-- Step 4, `XXTEA_INIT` (R175, R241). -/
def xxteaKeyLength (len : Nat) : Option Status := if len ≠ Config.xxteaKeyLen then some .invalidKey else none

/-- Step 4, `ISAAC_INIT` (R197, R243). -/
def isaacSeedLength (len : Nat) : Option Status :=
  if Config.isaacSeedMax < len ∨ len % 4 ≠ 0 then some .invalidSeed else none

/-- "The first that fails ends the command with its status" (R220); if none fails, the command goes on as `k`. -/
def guarded : List (Option Status) → Ctx → Ctx × Response → Ctx × Response
  | [], _, k => k
  | some st :: _, c, _ => raise st c
  | none :: rest, c, k => guarded rest c k

/-! Step 3, the phase check (R245): the command goes on with the context of its algorithm, and raises `ERR_PHASE`
when another tag or none is held. -/

def onArc4 (c : Ctx) (k : Arc4Ctx → Ctx × Response) : Ctx × Response :=
  match c with
  | .arc4 a => k a
  | .none | .salsa20 _ | .xxtea _ | .isaac _ => raise .errPhase c

def onSalsa (c : Ctx) (k : SalsaCtx → Ctx × Response) : Ctx × Response :=
  match c with
  | .salsa20 a => k a
  | .none | .arc4 _ | .xxtea _ | .isaac _ => raise .errPhase c

def onXxtea (c : Ctx) (k : XxteaCtx → Ctx × Response) : Ctx × Response :=
  match c with
  | .xxtea a => k a
  | .none | .arc4 _ | .salsa20 _ | .isaac _ => raise .errPhase c

def onIsaac (c : Ctx) (k : IsaacCtx → Ctx × Response) : Ctx × Response :=
  match c with
  | .isaac a => k a
  | .none | .arc4 _ | .salsa20 _ | .xxtea _ => raise .errPhase c

end Sys2Proof.Machine
end

