-- ==== Sys2Proof/Machine/Arc4.lean ====
section
/-! DEFINITION. The ARC4 commands (`40_arc4.md`, units U1 and U2). -/

namespace Sys2Proof.Machine

/-- `swap` (R120), through a temporary: with `a = b` the entry keeps its value (R274). -/
def swap (S : Vector Byte 256) (a b : Byte) : Vector Byte 256 :=
  let t := rd S a
  wr (wr S a (rd S b)) b t

/-- One round of the key schedule (R121): `S` and `j` at index `i`. -/
def ksaStep (key : List Byte) (st : Vector Byte 256 × Byte) (i : Byte) : Vector Byte 256 × Byte :=
  let j := st.2 + rd st.1 i + key.getD (i.toNat % key.length) 0
  (swap st.1 i j, j)

/-- `KSA` (R121): from the identity and `j = 0`, one round per index 0 to 255. -/
def ksa (key : List Byte) : Vector Byte 256 := (indices256.foldl (ksaStep key) (fill256 id, 0)).1

/-- The context after the key schedule alone: `I = J = 0` (R123). -/
def arc4Fresh (key : List Byte) : Arc4Ctx := { S := ksa key, I := 0, J := 0 }

/-- `PRGA` (R122): one keystream byte and the stepped context. -/
def prga (c : Arc4Ctx) : Byte × Arc4Ctx :=
  let i := c.I + 1
  let j := c.J + rd c.S i
  let S := swap c.S i j
  (rd S (rd S i + rd S j), { S := S, I := i, J := j })

/-- `repeat n times: PRGA()`, results thrown away (R123). -/
def arc4Skip : Nat → Arc4Ctx → Arc4Ctx
  | 0, c => c
  | n + 1, c => arc4Skip n (prga c).2

/-- `n` keystream bytes (R125). -/
def arc4Keystream : Nat → Arc4Ctx → List Byte × Arc4Ctx
  | 0, c => ([], c)
  | n + 1, c =>
    let r := arc4Keystream n (prga c).2
    ((prga c).1 :: r.1, r.2)

/-- The transform loop (R124): one step per byte, in index order. -/
def arc4Transform : List Byte → Arc4Ctx → List Byte × Arc4Ctx
  | [], c => ([], c)
  | b :: bs, c =>
    let r := arc4Transform bs (prga c).2
    ((b ^^^ (prga c).1) :: r.1, r.2)

/-- `ARC4_INIT` (R123). -/
def execArc4Init (arg : Byte) (skip : Word) (key : List Byte) (s : State) : Host.Outcome State Fault Refusal :=
  answer (guarded [argZero arg, arc4KeyLength key.length] s.ctx
    (complete (.arc4 (arc4Skip skip.toNat (arc4Fresh key))) [])) s

/-- `ARC4_XFRM` (R124). -/
def execArc4Xfrm (arg : Byte) (operand : Word) (data : List Byte) (s : State) : Host.Outcome State Fault Refusal :=
  answer (guarded [argZero arg, operandZero operand] s.ctx
    (onArc4 s.ctx fun a =>
      let r := arc4Transform data a
      complete (.arc4 r.2) r.1)) s

/-- `ARC4_KS` (R125). -/
def execArc4Ks (arg : Byte) (len : BitVec 16) (operand : Word) (s : State) : Host.Outcome State Fault Refusal :=
  answer (guarded [argZero arg, operandZero operand] s.ctx
    (onArc4 s.ctx fun a =>
      let r := arc4Keystream len.toNat a
      complete (.arc4 r.2) r.1)) s

end Sys2Proof.Machine
end

