-- ==== Sys2Proof/Machine/Control.lean ====
section
/-! DEFINITION. The control commands (`44_control.md`, unit U8). -/

namespace Sys2Proof.Machine

/-- The second byte of the `STATUS` reply: `ROUNDS` of a Salsa20 context, else 0 (R222). -/
def statusRounds : Ctx → Byte
  | .salsa20 a => a.ROUNDS.setWidth 8
  | .none | .arc4 _ | .xxtea _ | .isaac _ => 0

/-- `STATUS` (R222). -/
def execStatus (arg : Byte) (len : BitVec 16) (operand : Word) (s : State) : Host.Outcome State Fault Refusal :=
  answer (guarded [argZero arg, operandZero operand, lenZero len] s.ctx
    (complete s.ctx [s.ctx.alg.code.setWidth 8, statusRounds s.ctx])) s

/-- `DISCARD` (R223). -/
def execDiscard (arg : Byte) (len : BitVec 16) (operand : Word) (s : State) : Host.Outcome State Fault Refusal :=
  answer (guarded [argZero arg, operandZero operand, lenZero len] s.ctx (complete .none [])) s

end Sys2Proof.Machine
end

