-- ==== Sys2Proof/Machine/Isaac.lean ====
section
/-! DEFINITION. The ISAAC commands (`43_isaac.md`, units U6 and U7). -/

namespace Sys2Proof.Machine

/-- The eight local variables of the mixing network (R191). -/
structure Mixers where
  a : Word
  b : Word
  c : Word
  d : Word
  e : Word
  f : Word
  g : Word
  h : Word
  deriving DecidableEq, Repr

/-- `mix` (R191). Each of the eight steps is three assignments, left to right. -/
def mix (m : Mixers) : Mixers :=
  let a := m.a ^^^ (m.b <<< 11)
  let d := m.d + a
  let b := m.b + m.c
  let b := b ^^^ (m.c >>> 2)
  let e := m.e + b
  let c := m.c + d
  let c := c ^^^ (d <<< 8)
  let f := m.f + c
  let d := d + e
  let d := d ^^^ (e >>> 16)
  let g := m.g + d
  let e := e + f
  let e := e ^^^ (f <<< 10)
  let h := m.h + e
  let f := f + g
  let f := f ^^^ (g >>> 4)
  let a := a + f
  let g := g + h
  let g := g ^^^ (h <<< 8)
  let b := b + g
  let h := h + a
  let h := h ^^^ (a >>> 9)
  let c := c + h
  let a := a + b
  { a, b, c, d, e, f, g, h }

/-- Add the eight entries at `i .. i+7` to the eight variables (R193). -/
def mixAdd (m : Mixers) (src : Vector Word 256) (i : Byte) : Mixers :=
  { a := m.a + rd src i, b := m.b + rd src (i + 1), c := m.c + rd src (i + 2), d := m.d + rd src (i + 3),
    e := m.e + rd src (i + 4), f := m.f + rd src (i + 5), g := m.g + rd src (i + 6), h := m.h + rd src (i + 7) }

/-- Store the eight variables at `i .. i+7` (R193). -/
def mixStore (m : Mixers) (mm : Vector Word 256) (i : Byte) : Vector Word 256 :=
  wr (wr (wr (wr (wr (wr (wr (wr mm i m.a) (i + 1) m.b) (i + 2) m.c) (i + 3) m.d) (i + 4) m.e) (i + 5) m.f)
    (i + 6) m.g) (i + 7) m.h

/-- `i in 0, 8, 16, .. 248` (R193). -/
def groupStarts : List Byte := (List.range 32).map fun k => BitVec.ofNat 8 (8 * k)

/-- One group of the first pass: the seed words are folded in (R193). -/
def firstPassStep (seed : Vector Word 256) (st : Mixers × Vector Word 256) (i : Byte) : Mixers × Vector Word 256 :=
  let m := mix (mixAdd st.1 seed i)
  (m, mixStore m st.2 i)

/-- One group of the second pass: the memory itself is folded in (R193). -/
def secondPassStep (st : Mixers × Vector Word 256) (i : Byte) : Mixers × Vector Word 256 :=
  let m := mix (mixAdd st.1 st.2 i)
  (m, mixStore m st.2 i)

/-- The eight variables after `GOLDEN` went through four mixes (R193). -/
def goldenMixers : Mixers :=
  let g := Config.isaacGolden
  mix (mix (mix (mix { a := g, b := g, c := g, d := g, e := g, f := g, g := g, h := g })))

/-- Both passes (R193): the memory they leave. The memory before the first pass holds no value and every entry is
written before it is read, so the array they start from does not matter (log entry 14). -/
def isaacFillMemory (seed : Vector Word 256) : Vector Word 256 :=
  let first := groupStarts.foldl (firstPassStep seed) (goldenMixers, fill256 fun _ => 0)
  (groupStarts.foldl secondPassStep first).2

/-- `isaac_seed` (R192): the seed's words, then zero words. -/
def isaacSeed (seed : List Byte) : Vector Word 256 :=
  let ws := wordsLe seed
  fill256 fun k => ws.getD k.toNat 0

/-- The per-position operation on `AA` (R194). -/
def isaacShift (i : Byte) (aa : Word) : Word :=
  match i.toNat % 4 with
  | 0 => aa ^^^ (aa <<< 13)
  | 1 => aa ^^^ (aa >>> 6)
  | 2 => aa ^^^ (aa <<< 2)
  | _ => aa ^^^ (aa >>> 16)

/-- One index of the block generator (R194). -/
def isaacGenStep (c : IsaacCtx) (i : Byte) : IsaacCtx :=
  let x := rd c.MM i
  let aa := rd c.MM (i + 128) + isaacShift i c.AA
  let y := rd c.MM ((x >>> 2).setWidth 8) + aa + c.BB
  let mm := wr c.MM i y
  let bb := rd mm ((y >>> 10).setWidth 8) + x
  { c with MM := mm, RSL := wr c.RSL i bb, AA := aa, BB := bb }

/-- `isaac_generate` (R194). -/
def isaacGenerate (c : IsaacCtx) : IsaacCtx :=
  let cc := c.CC + 1
  indices256.foldl isaacGenStep { c with CC := cc, BB := c.BB + cc }

/-- The context `ISAAC_INIT` builds from a seed (R192, R193). -/
def isaacFresh (seed : List Byte) : IsaacCtx :=
  let rsl := isaacSeed seed
  isaacGenerate { MM := isaacFillMemory rsl, RSL := rsl, AA := 0, BB := 0, CC := 0, CNT := 256, OBUF := [] }

/-- The index `255 - CNT` of the draw (R195). A countdown above 255 is held by no run after the decrement (R29) and
selects entry 0 here (log entry 13). -/
def drawIndex (cnt : BitVec 9) : Byte := BitVec.ofNat 8 (255 - cnt.toNat)

/-- `isaac_draw` (R195): the next result word, a new block being generated when none is left. -/
def isaacDraw (c : IsaacCtx) : Word × IsaacCtx :=
  let c' := if c.CNT = 0 then { isaacGenerate c with CNT := 255 } else { c with CNT := c.CNT - 1 }
  (rd c'.RSL (drawIndex c'.CNT), c')

/-- `isaac_byte` (R196): the head of the queue, which is filled from a draw when it is empty. -/
def isaacByte (c : IsaacCtx) : Byte × IsaacCtx :=
  let c' := if c.OBUF = [] then { (isaacDraw c).2 with OBUF := bytesLe32 (isaacDraw c).1 } else c
  (c'.OBUF.headD 0, { c' with OBUF := c'.OBUF.tail })

/-- `n` bytes of the sequence (R198). -/
def isaacBytes : Nat → IsaacCtx → List Byte × IsaacCtx
  | 0, c => ([], c)
  | n + 1, c =>
    let r := isaacBytes n (isaacByte c).2
    ((isaacByte c).1 :: r.1, r.2)

/-- `ISAAC_INIT` (R197). -/
def execIsaacInit (arg : Byte) (operand : Word) (seed : List Byte) (s : State) : Host.Outcome State Fault Refusal :=
  answer (guarded [argZero arg, operandZero operand, isaacSeedLength seed.length] s.ctx
    (complete (.isaac (isaacFresh seed)) [])) s

/-- `ISAAC_NEXT` (R198). -/
def execIsaacNext (arg : Byte) (len : BitVec 16) (operand : Word) (s : State) : Host.Outcome State Fault Refusal :=
  answer (guarded [argZero arg, operandZero operand] s.ctx
    (onIsaac s.ctx fun a =>
      let r := isaacBytes len.toNat a
      complete (.isaac r.2) r.1)) s

end Sys2Proof.Machine
end

