-- ==== Sys2Proof/Machine/Salsa20.lean ====
section
/-! DEFINITION. The Salsa20 commands (`41_salsa20.md`, units U3 and U4). -/

namespace Sys2Proof.Machine

/-- The 16-word matrix (R26). -/
abbrev Matrix := Vector Word 16

/-- The quarter-round (R141). -/
def quarterRound (y0 y1 y2 y3 : Word) : Word × Word × Word × Word :=
  let z1 := y1 ^^^ rotl32 (y0 + y3) 7
  let z2 := y2 ^^^ rotl32 (z1 + y0) 9
  let z3 := y3 ^^^ rotl32 (z2 + z1) 13
  let z0 := y0 ^^^ rotl32 (z3 + z2) 18
  (z0, z1, z2, z3)

/-- `(x[a], x[b], x[c], x[d]) <- QR(x[a], x[b], x[c], x[d])` (R142, R143). -/
def quarterAt (x : Matrix) (a b c d : Fin 16) : Matrix :=
  let z := quarterRound x[a] x[b] x[c] x[d]
  (((x.set a z.1).set b z.2.1).set c z.2.2.1).set d z.2.2.2

/-- The column pass (R142). -/
def columnRound (x : Matrix) : Matrix :=
  quarterAt (quarterAt (quarterAt (quarterAt x 0 4 8 12) 5 9 13 1) 10 14 2 6) 15 3 7 11

/-- The second pass, along the rows (R143, `90_conflicts.md` C4). -/
def rowRound (x : Matrix) : Matrix :=
  quarterAt (quarterAt (quarterAt (quarterAt x 0 1 2 3) 5 6 7 4) 10 11 8 9) 15 12 13 14

/-- The double-round (R144). -/
def doubleRound (x : Matrix) : Matrix := rowRound (columnRound x)

/-- `repeat n times: x <- doubleround(x)` (R145). -/
def doubleRounds : Nat → Matrix → Matrix
  | 0, x => x
  | n + 1, x => doubleRounds n (doubleRound x)

/-- The block function (R145): 64 bytes. -/
def salsaBlock (c : SalsaCtx) : List Byte :=
  serLe (Vector.zipWith (· + ·) (doubleRounds (c.ROUNDS.toNat / 2) c.X) c.X).toList

/-- The counter step (R146): the low half, with a carry into the high half when it wraps to 0. -/
def salsaCount (c : SalsaCtx) : SalsaCtx :=
  let low := c.X[8] + 1
  let x := c.X.set 8 low
  { c with X := if low = 0 then x.set 9 (x[9] + 1) else x }

/-- The four constant words for a key of 16 or 32 bytes (R140). -/
def salsaConstants (keyLength : Nat) : Word × Word × Word × Word :=
  if keyLength = 32 then (0x61707865, 0x3320646E, 0x79622D32, 0x6B206574)
  else (0x61707865, 0x3120646E, 0x79622D36, 0x6B206574)

/-- The key load (R147): the payload is the key, then the 8-byte nonce; the counter starts at 0. -/
def salsaLoad (p : List Byte) : Matrix :=
  let kl := p.length - Config.salsaNonceLen
  let c := salsaConstants kl
  let k := wordsLe (p.take 16)
  let k2 := if kl = 32 then wordsLe ((p.drop 16).take 16) else k
  let n := wordsLe ((p.drop kl).take 8)
  #v[c.1, k.getD 0 0, k.getD 1 0, k.getD 2 0,
     k.getD 3 0, c.2.1, n.getD 0 0, n.getD 1 0,
     0, 0, c.2.2.1, k2.getD 0 0,
     k2.getD 1 0, k2.getD 2 0, k2.getD 3 0, c.2.2.2]

/-- The loop of `SALSA_XFRM` (R149) over `n` blocks: XOR with up to 64 bytes of input, then the counter step. What
is left of the last block is thrown away (R150). -/
def salsaBlocks : Nat → List Byte → SalsaCtx → List Byte × SalsaCtx
  | 0, _, c => ([], c)
  | n + 1, d, c =>
    let r := salsaBlocks n (d.drop Config.salsaBlock) (salsaCount c)
    (xorBytes (d.take Config.salsaBlock) (salsaBlock c) ++ r.1, r.2)

/-- The transform (R149): `ceil(LEN / 64)` blocks. -/
def salsaTransform (d : List Byte) (c : SalsaCtx) : List Byte × SalsaCtx :=
  salsaBlocks ((d.length + 63) / Config.salsaBlock) d c

/-- `SALSA_INIT` (R148). -/
def execSalsaInit (rounds : Byte) (operand : Word) (keyNonce : List Byte) (s : State) :
    Host.Outcome State Fault Refusal :=
  answer (guarded [operandZero operand, salsaKeyLength keyNonce.length, salsaRoundCount rounds] s.ctx
    (complete (.salsa20 { X := salsaLoad keyNonce, ROUNDS := rounds.setWidth 5 }) [])) s

/-- `SALSA_XFRM` (R149). -/
def execSalsaXfrm (arg : Byte) (operand : Word) (data : List Byte) (s : State) : Host.Outcome State Fault Refusal :=
  answer (guarded [argZero arg, operandZero operand] s.ctx
    (onSalsa s.ctx fun a =>
      let r := salsaTransform data a
      complete (.salsa20 r.2) r.1)) s

end Sys2Proof.Machine
end

