-- ==== Sys2Proof/Machine/Xxtea.lean ====
section
/-! DEFINITION. The XXTEA commands (`42_xxtea.md`, unit U5). -/

namespace Sys2Proof.Machine

/-- `MX` (R171), the key word being the one at index `(p mod 4) ^ e`. -/
def mx (y z sum : Word) (p : Nat) (e : BitVec 2) (K : Vector Word 4) : Word :=
  let a := (z >>> 5) ^^^ (y <<< 2)
  let b := (y >>> 3) ^^^ (z <<< 4)
  let c := a + b
  let d := sum ^^^ y
  let f := K[(BitVec.ofNat 2 p ^^^ e).toNat]'(BitVec.ofNat 2 p ^^^ e).isLt ^^^ z
  let g := d + f
  c ^^^ g

/-- `e = shr32(sum, 2) & 3` (R171, R173). -/
def xxteaE (sum : Word) : BitVec 2 := (sum >>> 2).setWidth 2

/-- The number of rounds for `n` words (R172). -/
def xxteaRounds (n : Nat) : Nat := 6 + 52 / n

/-- The `MX` value at index `p` of the block as it stands, its neighbours taken circularly (R173, R174). -/
def mxAt (K : Vector Word 4) (sum : Word) (v : List Word) (p : Nat) : Word :=
  mx (v.getD ((p + 1) % v.length) 0) (v.getD ((p + v.length - 1) % v.length) 0) sum p (xxteaE sum) K

/-- `v[p] <- add32(v[p], MX(..))` (R173). -/
def encWord (K : Vector Word 4) (sum : Word) (v : List Word) (p : Nat) : List Word :=
  v.set p (v.getD p 0 + mxAt K sum v p)

/-- `v[p] <- sub32(v[p], MX(..))` (R174). -/
def decWord (K : Vector Word 4) (sum : Word) (v : List Word) (p : Nat) : List Word :=
  v.set p (v.getD p 0 - mxAt K sum v p)

/-- One round of encryption: every index in order (R173). -/
def encRound (K : Vector Word 4) (sum : Word) (v : List Word) : List Word :=
  (List.range v.length).foldl (encWord K sum) v

/-- One round of decryption: every index in reverse order (R174). -/
def decRound (K : Vector Word 4) (sum : Word) (v : List Word) : List Word :=
  (List.range v.length).reverse.foldl (decWord K sum) v

/-- `q` rounds of encryption, the sum stepped before each (R173). -/
def encRounds (K : Vector Word 4) : Nat → Word → List Word → List Word
  | 0, _, v => v
  | q + 1, sum, v => encRounds K q (sum + Config.xxteaDelta) (encRound K (sum + Config.xxteaDelta) v)

/-- `q` rounds of decryption, the sum stepped back after each (R174). -/
def decRounds (K : Vector Word 4) : Nat → Word → List Word → List Word
  | 0, _, v => v
  | q + 1, sum, v => decRounds K q (sum - Config.xxteaDelta) (decRound K sum v)

/-- `xxtea_encrypt` for a block of at least 2 words; a shorter one is unchanged (R173, R176). -/
def xxteaEncrypt (K : Vector Word 4) (v : List Word) : List Word :=
  if 2 ≤ v.length then encRounds K (xxteaRounds v.length) 0 v else v

/-- `xxtea_decrypt` for a block of at least 2 words, from `sum = q * DELTA`; a shorter one is unchanged (R174, R177). -/
def xxteaDecrypt (K : Vector Word 4) (v : List Word) : List Word :=
  if 2 ≤ v.length then
    decRounds K (xxteaRounds v.length) (BitVec.ofNat 32 (xxteaRounds v.length) * Config.xxteaDelta) v
  else v

/-- `K[0 .. 3] <- words_le(key)` (R175). -/
def xxteaLoad (key : List Byte) : Vector Word 4 :=
  let k := wordsLe key
  #v[k.getD 0 0, k.getD 1 0, k.getD 2 0, k.getD 3 0]

/-- `XXTEA_INIT` (R175). -/
def execXxteaInit (arg : Byte) (operand : Word) (key : List Byte) (s : State) : Host.Outcome State Fault Refusal :=
  answer (guarded [argZero arg, operandZero operand, xxteaKeyLength key.length] s.ctx
    (complete (.xxtea { K := xxteaLoad key }) [])) s

/-- `XXTEA_ENC` (R176): the context is only read. -/
def execXxteaEnc (arg : Byte) (operand : Word) (data : List Byte) (s : State) : Host.Outcome State Fault Refusal :=
  answer (guarded [argZero arg, operandZero operand, wholeWords data.length] s.ctx
    (onXxtea s.ctx fun a => complete s.ctx (serLe (xxteaEncrypt a.K (wordsLe data))))) s

/-- `XXTEA_DEC` (R177): the context is only read. -/
def execXxteaDec (arg : Byte) (operand : Word) (data : List Byte) (s : State) : Host.Outcome State Fault Refusal :=
  answer (guarded [argZero arg, operandZero operand, wholeWords data.length] s.ctx
    (onXxtea s.ctx fun a => complete s.ctx (serLe (xxteaDecrypt a.K (wordsLe data))))) s

end Sys2Proof.Machine
end

