-- ==== Sys2Proof/Syntax.lean ====
section
/-! DEFINITION. The twelve commands of R97, one constructor per row of the opcode table. A command is the record
`(OPCODE, ARG, LEN, OPERAND, PAYLOAD)` (R93). The constructor is the `OPCODE`. Fields that must be 0 are kept,
because a wrong value in one "does not select another command, it makes this one fail" (R97, R100). In formats K
and X, `LEN` is the length of the payload (R91) and is not stored a second time (log entry 6); in formats G and C
no payload follows and `LEN` is a field. -/

namespace Sys2Proof

inductive Instr where
  /-- `STATUS`, format C (R222). -/
  | status (arg : Byte) (len : BitVec 16) (operand : Word)
  /-- `DISCARD`, format C (R223). -/
  | discard (arg : Byte) (len : BitVec 16) (operand : Word)
  /-- `ARC4_INIT`, format K: the payload is the key, `OPERAND` the skip (R123). -/
  | arc4Init (arg : Byte) (skip : Word) (key : List Byte)
  /-- `ARC4_XFRM`, format X (R124). -/
  | arc4Xfrm (arg : Byte) (operand : Word) (data : List Byte)
  /-- `ARC4_KS`, format G: `LEN` is the number of bytes asked for (R125). -/
  | arc4Ks (arg : Byte) (len : BitVec 16) (operand : Word)
  /-- `SALSA_INIT`, format K: `ARG` is the round count, the payload is key then nonce (R148). -/
  | salsaInit (rounds : Byte) (operand : Word) (keyNonce : List Byte)
  /-- `SALSA_XFRM`, format X (R149). -/
  | salsaXfrm (arg : Byte) (operand : Word) (data : List Byte)
  /-- `XXTEA_INIT`, format K (R175). -/
  | xxteaInit (arg : Byte) (operand : Word) (key : List Byte)
  /-- `XXTEA_ENC`, format X (R176). -/
  | xxteaEnc (arg : Byte) (operand : Word) (data : List Byte)
  /-- `XXTEA_DEC`, format X (R177). -/
  | xxteaDec (arg : Byte) (operand : Word) (data : List Byte)
  /-- `ISAAC_INIT`, format K: the payload is the seed (R197). -/
  | isaacInit (arg : Byte) (operand : Word) (seed : List Byte)
  /-- `ISAAC_NEXT`, format G: `LEN` is the number of bytes asked for (R198). -/
  | isaacNext (arg : Byte) (len : BitVec 16) (operand : Word)
  deriving DecidableEq, Repr

end Sys2Proof
end

