-- ==== Sys2Proof/Machine/Dispatch.lean ====
section
/-! DEFINITION. The dispatch of R220: one direct call of a meaning per command. -/

namespace Sys2Proof.Machine

def exec (i : Instr) (s : State) : Host.Outcome State Fault Refusal :=
  match i with
  | .status arg len operand => Sys2Proof.Machine.execStatus arg len operand s
  | .discard arg len operand => Sys2Proof.Machine.execDiscard arg len operand s
  | .arc4Init arg skip key => Sys2Proof.Machine.execArc4Init arg skip key s
  | .arc4Xfrm arg operand data => Sys2Proof.Machine.execArc4Xfrm arg operand data s
  | .arc4Ks arg len operand => Sys2Proof.Machine.execArc4Ks arg len operand s
  | .salsaInit rounds operand keyNonce => Sys2Proof.Machine.execSalsaInit rounds operand keyNonce s
  | .salsaXfrm arg operand data => Sys2Proof.Machine.execSalsaXfrm arg operand data s
  | .xxteaInit arg operand key => Sys2Proof.Machine.execXxteaInit arg operand key s
  | .xxteaEnc arg operand data => Sys2Proof.Machine.execXxteaEnc arg operand data s
  | .xxteaDec arg operand data => Sys2Proof.Machine.execXxteaDec arg operand data s
  | .isaacInit arg operand seed => Sys2Proof.Machine.execIsaacInit arg operand seed s
  | .isaacNext arg len operand => Sys2Proof.Machine.execIsaacNext arg len operand s

end Sys2Proof.Machine
end

