-- ==== Sys2Proof/WellFormed.lean ====
section
/-! DEFINITION. When a term of `Instr` is a command the port can carry: `LEN` has 16 bits (R91), so a payload has
at most 65535 bytes. Every value of every other field is representable (a wrong one makes the command fail, R100). -/

namespace Sys2Proof

/-- The bytes that travel after the header: the payload of formats K and X, nothing in formats G and C (R94). -/
def Instr.payload : Instr → List Byte
  | .status _ _ _ | .discard _ _ _ | .arc4Ks _ _ _ | .isaacNext _ _ _ => []
  | .arc4Init _ _ p | .arc4Xfrm _ _ p | .salsaInit _ _ p | .salsaXfrm _ _ p
  | .xxteaInit _ _ p | .xxteaEnc _ _ p | .xxteaDec _ _ p | .isaacInit _ _ p => p

/-- The payload fits the 16-bit `LEN` field (R91). -/
abbrev Instr.WellFormed (i : Instr) : Prop := i.payload.length < 65536

end Sys2Proof
end

