-- ==== Sys2Proof/Decode.lean ====
section
/-! DEFINITION. The encoding of a command (R90 to R101): the opcode map, the decoder over the byte-wide port, the
encoder, and the same two over the 32-bit port (R93). The decoder is total: on any bytes it gives a command, an
unlisted opcode, or says that the bytes do not hold a whole command. -/

namespace Sys2Proof

open Machine

/-- The twelve mnemonics of R97. -/
inductive Op where
  | status | discard | arc4Init | arc4Xfrm | arc4Ks | salsaInit | salsaXfrm
  | xxteaInit | xxteaEnc | xxteaDec | isaacInit | isaacNext
  deriving DecidableEq, Repr

/-- The four formats of R94. -/
inductive Format where
  /-- key load -/
  | k
  /-- transform -/
  | x
  /-- generate -/
  | g
  /-- control -/
  | c
  deriving DecidableEq, Repr

/-- What the decoder makes of what stands at the port, whose units are bytes or words. -/
inductive Decoded (α : Type) where
  /-- One whole command, and what follows it. -/
  | command (i : Instr) (rest : List α)
  /-- A whole header whose `OPCODE` R97 does not list, and what follows the header: no payload is taken (R99). -/
  | unlisted (opcode : Byte) (rest : List α)
  /-- Fewer units than the header, or than the header and its payload, need (R101). -/
  | incomplete
  deriving DecidableEq, Repr

/-- The `OPCODE` column of R97. -/
def Op.code : Op → Byte
  | .status => 0x00 | .discard => 0x01
  | .arc4Init => 0x10 | .arc4Xfrm => 0x11 | .arc4Ks => 0x12
  | .salsaInit => 0x20 | .salsaXfrm => 0x21
  | .xxteaInit => 0x30 | .xxteaEnc => 0x31 | .xxteaDec => 0x32
  | .isaacInit => 0x40 | .isaacNext => 0x41

/-- The format column of R97. -/
def Op.format : Op → Format
  | .status | .discard => .c
  | .arc4Init | .salsaInit | .xxteaInit | .isaacInit => .k
  | .arc4Xfrm | .salsaXfrm | .xxteaEnc | .xxteaDec => .x
  | .arc4Ks | .isaacNext => .g

/-- The rows of R97, in the table's order. -/
def Op.all : List Op :=
  [.status, .discard, .arc4Init, .arc4Xfrm, .arc4Ks, .salsaInit, .salsaXfrm,
   .xxteaInit, .xxteaEnc, .xxteaDec, .isaacInit, .isaacNext]

/-- "`OPCODE` is matched in full" (R97): the row whose code the byte is. -/
def Op.ofCode (b : Byte) : Option Op := Op.all.find? fun o => o.code == b

/-- Whether `LEN` payload bytes follow the header (R94, R101). -/
def Format.hasPayload : Format → Bool
  | .k | .x => true
  | .g | .c => false

/-- `W0[31:24]` (R91). -/
def opcodeField (w0 : Word) : Byte := w0.extractLsb' 24 8

/-- `W0[23:16]` (R91, R98). -/
def argField (w0 : Word) : Byte := w0.extractLsb' 16 8

/-- `W0[15:0]` (R91, R98). -/
def lenField (w0 : Word) : BitVec 16 := w0.extractLsb' 0 16

/-- `W0` from its three fields (R91). -/
def headerWord (opcode arg : Byte) (len : BitVec 16) : Word := fields32 opcode arg len

/-- The command of a mnemonic from the fields of its record (R93). -/
def Instr.ofFields : Op → Byte → BitVec 16 → Word → List Byte → Instr
  | .status, arg, len, operand, _ => .status arg len operand
  | .discard, arg, len, operand, _ => .discard arg len operand
  | .arc4Init, arg, _, operand, p => .arc4Init arg operand p
  | .arc4Xfrm, arg, _, operand, p => .arc4Xfrm arg operand p
  | .arc4Ks, arg, len, operand, _ => .arc4Ks arg len operand
  | .salsaInit, arg, _, operand, p => .salsaInit arg operand p
  | .salsaXfrm, arg, _, operand, p => .salsaXfrm arg operand p
  | .xxteaInit, arg, _, operand, p => .xxteaInit arg operand p
  | .xxteaEnc, arg, _, operand, p => .xxteaEnc arg operand p
  | .xxteaDec, arg, _, operand, p => .xxteaDec arg operand p
  | .isaacInit, arg, _, operand, p => .isaacInit arg operand p
  | .isaacNext, arg, len, operand, _ => .isaacNext arg len operand

/-- The number of payload bytes after a header: `LEN` for formats K and X, none otherwise and none after an unlisted
opcode (R99, R101). -/
def payloadLength (w0 : Word) : Nat :=
  match Op.ofCode (opcodeField w0) with
  | some o => if o.format.hasPayload then (lenField w0).toNat else 0
  | none => 0

/-- A header and the bytes after it (R99 to R101). -/
def decodeHeader (w0 w1 : Word) (rest : List Byte) : Decoded Byte :=
  match Op.ofCode (opcodeField w0) with
  | none => .unlisted (opcodeField w0) rest
  | some o =>
    if rest.length < payloadLength w0 then .incomplete
    else .command (Instr.ofFields o (argField w0) (lenField w0) w1 (rest.take (payloadLength w0)))
      (rest.drop (payloadLength w0))

/-- The decoder of the byte-wide port: `W0` and `W1` least significant byte first, then the payload (R93). -/
def decode : List Byte → Decoded Byte
  | a0 :: a1 :: a2 :: a3 :: b0 :: b1 :: b2 :: b3 :: rest => decodeHeader (le32 a0 a1 a2 a3) (le32 b0 b1 b2 b3) rest
  | _ => .incomplete

/-- The decoder of the 32-bit port: `W0`, `W1`, then `LEN` bytes packed four to a word; the padding of the last word
is ignored (R93). -/
def decodeWords : List Word → Decoded Word
  | w0 :: w1 :: rest =>
    let n := payloadLength w0
    let k := (n + 3) / 4
    match Op.ofCode (opcodeField w0) with
    | none => .unlisted (opcodeField w0) rest
    | some o =>
      if rest.length < k then .incomplete
      else .command (Instr.ofFields o (argField w0) (lenField w0) w1 ((serLe (rest.take k)).take n)) (rest.drop k)
  | _ => .incomplete

/-! ### The encoder -/

/-- The row of R97 a command belongs to. -/
def Instr.op : Instr → Op
  | .status _ _ _ => .status
  | .discard _ _ _ => .discard
  | .arc4Init _ _ _ => .arc4Init
  | .arc4Xfrm _ _ _ => .arc4Xfrm
  | .arc4Ks _ _ _ => .arc4Ks
  | .salsaInit _ _ _ => .salsaInit
  | .salsaXfrm _ _ _ => .salsaXfrm
  | .xxteaInit _ _ _ => .xxteaInit
  | .xxteaEnc _ _ _ => .xxteaEnc
  | .xxteaDec _ _ _ => .xxteaDec
  | .isaacInit _ _ _ => .isaacInit
  | .isaacNext _ _ _ => .isaacNext

/-- The `ARG` field (R91). -/
def Instr.arg : Instr → Byte
  | .status a _ _ | .discard a _ _ | .arc4Init a _ _ | .arc4Xfrm a _ _ | .arc4Ks a _ _ | .salsaInit a _ _
  | .salsaXfrm a _ _ | .xxteaInit a _ _ | .xxteaEnc a _ _ | .xxteaDec a _ _ | .isaacInit a _ _
  | .isaacNext a _ _ => a

/-- The `LEN` field (R91): the length of the payload in formats K and X. -/
def Instr.len : Instr → BitVec 16
  | .status _ n _ | .discard _ n _ | .arc4Ks _ n _ | .isaacNext _ n _ => n
  | .arc4Init _ _ p | .arc4Xfrm _ _ p | .salsaInit _ _ p | .salsaXfrm _ _ p
  | .xxteaInit _ _ p | .xxteaEnc _ _ p | .xxteaDec _ _ p | .isaacInit _ _ p => BitVec.ofNat 16 p.length

/-- The `OPERAND` field (R92). -/
def Instr.operand : Instr → Word
  | .status _ _ w | .discard _ _ w | .arc4Ks _ _ w | .isaacNext _ _ w => w
  | .arc4Init _ w _ | .arc4Xfrm _ w _ | .salsaInit _ w _ | .salsaXfrm _ w _
  | .xxteaInit _ w _ | .xxteaEnc _ w _ | .xxteaDec _ w _ | .isaacInit _ w _ => w

/-- `W0` of a command (R91). -/
def Instr.w0 (i : Instr) : Word := headerWord i.op.code i.arg i.len

/-- A command on the byte-wide port (R93). -/
def encode (i : Instr) : List Byte := bytesLe32 i.w0 ++ bytesLe32 i.operand ++ i.payload

/-- A command on the 32-bit port (R93). -/
def encodeWords (i : Instr) : List Word := i.w0 :: i.operand :: packLe i.payload

/-! ### The host's table words -/

/-- The `n` bytes of a number, least significant first. -/
def bytesOfNat : Nat → Nat → List Byte
  | 0, _ => []
  | n + 1, w => BitVec.ofNat 8 w :: bytesOfNat n (w / 256)

/-- The bytes of ONE command whose first `nbits` bits are `w`: bit 0 is the least significant bit of `W0`, the bits
above `nbits` are 0, and there are as many bytes as the header asks for (R93, R101). -/
def tableBytes (nbits w : Nat) : List Byte :=
  let v := w % 2 ^ nbits
  bytesOfNat (8 + payloadLength (BitVec.ofNat 32 v)) v

/-- The instruction the decoder reads from an instruction whose bits are `w`. -/
def decodeTableWord (nbits w : Nat) : Option Instr :=
  match decode (tableBytes nbits w) with
  | .command i _ => some i
  | .unlisted _ _ | .incomplete => none

end Sys2Proof
end

