-- ==== Sys2Proof/Machine/Port.lean ====
section
/-! DEFINITION. Taking the next thing from the command port: a command, the header of an unlisted opcode, or the
reset input. -/

namespace Sys2Proof.Machine

/-- The bytes that stand at the port before the first reset, in order (R93). -/
def portBytes : List PortEvent → List Byte
  | .byte b :: rest => b :: portBytes rest
  | .reset :: _ => []
  | [] => []

/-- What stands at the port from the first reset on. -/
def fromReset : List PortEvent → List PortEvent
  | .byte _ :: rest => fromReset rest
  | .reset :: rest => .reset :: rest
  | [] => []

/-- The host sends these bytes. -/
def sendBytes (bs : List Byte) : List PortEvent := bs.map .byte

/-- What the block finds at its port. -/
inductive Fetched where
  /-- Nothing has been sent. -/
  | idle
  /-- A whole command, and what follows it. -/
  | command (i : Instr) (rest : List PortEvent)
  /-- A header with an unlisted opcode, and what follows the header (R99). -/
  | unlisted (opcode : Byte) (rest : List PortEvent)
  /-- The reset input, before a whole command has arrived, and what follows it (R270). -/
  | reset (rest : List PortEvent)
  /-- The beginning of a command, and nothing behind it. -/
  | incomplete
  deriving DecidableEq, Repr

/-- Read the port in order (R70). A reset that comes before the last byte of a command takes what was sent of it away
(R270); this also stands for a reset that cuts off a running command (log entry 3). -/
def fetch (port : List PortEvent) : Fetched :=
  match decode (portBytes port) with
  | .command i rest => .command i (sendBytes rest ++ fromReset port)
  | .unlisted op rest => .unlisted op (sendBytes rest ++ fromReset port)
  | .incomplete =>
    match fromReset port with
    | _ :: rest => .reset rest
    | [] => if port = [] then .idle else .incomplete

end Sys2Proof.Machine
end

