-- ==== Sys2Proof/Machine/Step.lean ====
section
/-! DEFINITION. One step of the machine: the block takes the next thing from its port. -/

namespace Sys2Proof.Machine

/-- One step. A whole command is executed (R220). An unlisted opcode is answered with `ERR_OPCODE` (R99, R244). The
reset input puts the block in the reset state without a response (R270). With nothing at the port the block is idle
and keeps its state (R258, log entry 4). The beginning of a command with nothing behind it is refused by name (log
entry 5). -/
def step (s : State) : Host.Outcome State Fault Refusal :=
  match fetch s.port with
  | .command i rest => exec i { s with port := rest }
  | .unlisted _ rest => answer (raise .errOpcode s.ctx) { s with port := rest }
  | .reset rest => .next (hostReset { s with port := rest })
  | .idle => .next s
  | .incomplete => .refused .incompleteCommand

/-- `s` with the one command whose first `nbits` bits are `w` at the head of the port: the host sends it (log
entries 11 and 12). -/
def State.withFetchWord (s : State) (nbits w : Nat) : State :=
  { s with port := sendBytes (tableBytes nbits w) ++ s.port }

end Sys2Proof.Machine
end

