-- ==== Sys2Proof/Machine/Assembler.lean ====
section
/-! DEFINITION. The text form of commands and responses (R102) and the pseudo-commands (R103). No step of the machine
uses this file: a tool turns a line into one of the twelve commands with it. -/

namespace Sys2Proof.Machine

abbrev Text := List Char

/-- A line of R102 or R103 with its operands read. -/
inductive AsmLine where
  | status
  | discard
  | arc4Init (key : List Byte) (skip : Option Word)
  | arc4Xfrm (data : List Byte)
  | arc4Enc (data : List Byte)
  | arc4Dec (data : List Byte)
  | arc4Ks (count : BitVec 16)
  | salsaInit (rounds : Byte) (keyNonce : List Byte)
  | salsaInitParts (rounds : Byte) (key nonce : List Byte)
  | salsaXfrm (data : List Byte)
  | salsaEnc (data : List Byte)
  | salsaDec (data : List Byte)
  | salsaKs (count : BitVec 16)
  | xxteaInit (key : List Byte)
  | xxteaEnc (data : List Byte)
  | xxteaDec (data : List Byte)
  | isaacInit (seed : Option (List Byte))
  | isaacNext (count : BitVec 16)
  deriving DecidableEq, Repr

/-- The one real command a line stands for: the skip defaults to 0, no seed means `LEN = 0`, key and nonce are joined
key first (R102); the pseudo-commands are those of R103. -/
def assemble : AsmLine → Instr
  | .status => .status 0 0 0
  | .discard => .discard 0 0 0
  | .arc4Init key skip => .arc4Init 0 (skip.getD 0) key
  | .arc4Xfrm data | .arc4Enc data | .arc4Dec data => .arc4Xfrm 0 0 data
  | .arc4Ks count => .arc4Ks 0 count 0
  | .salsaInit rounds keyNonce => .salsaInit rounds 0 keyNonce
  | .salsaInitParts rounds key nonce => .salsaInit rounds 0 (key ++ nonce)
  | .salsaXfrm data | .salsaEnc data | .salsaDec data => .salsaXfrm 0 0 data
  | .salsaKs count => .salsaXfrm 0 0 (List.replicate count.toNat 0)
  | .xxteaInit key => .xxteaInit 0 0 key
  | .xxteaEnc data => .xxteaEnc 0 0 data
  | .xxteaDec data => .xxteaDec 0 0 data
  | .isaacInit seed => .isaacInit 0 0 (seed.getD [])
  | .isaacNext count => .isaacNext 0 count 0

/-! ### Reading a line (R102) -/

/-- The double quote. -/
def quoteChar : Char := Char.ofNat 34

/-- A read token joins the list unless it is empty; it was gathered in reverse. -/
def flushToken (acc : Text) (rest : List Text) : List Text := if acc = [] then rest else acc.reverse :: rest

/-- Cut a line at spaces outside quotes; a `#` outside quotes starts a comment. -/
def tokens : Bool → Text → Text → List Text
  | _, acc, [] => flushToken acc []
  | quoted, acc, c :: cs =>
    if c = quoteChar then tokens (!quoted) (c :: acc) cs
    else if !quoted && c = '#' then flushToken acc []
    else if !quoted && c = ' ' then flushToken acc (tokens false [] cs)
    else tokens quoted (c :: acc) cs

/-- A hex digit, either case. -/
def hexDigit (c : Char) : Option Nat :=
  let n := c.toNat
  if 48 ≤ n ∧ n ≤ 57 then some (n - 48)
  else if 65 ≤ n ∧ n ≤ 70 then some (n - 55)
  else if 97 ≤ n ∧ n ≤ 102 then some (n - 87)
  else none

/-- Hex digit pairs without separators, first byte first (R6). -/
def hexBytes : Text → Option (List Byte)
  | [] => some []
  | [_] => none
  | a :: b :: rest =>
    match hexDigit a, hexDigit b, hexBytes rest with
    | some x, some y, some bs => some (BitVec.ofNat 8 (16 * x + y) :: bs)
    | _, _, _ => none

/-- The rest of a quoted ASCII string, up to the closing quote, which ends the token. -/
def quotedBytes : Text → Option (List Byte)
  | [] => none
  | c :: cs =>
    if c = quoteChar then (if cs = [] then some [] else none)
    else if c.toNat < 128 then
      match quotedBytes cs with
      | some bs => some (BitVec.ofNat 8 c.toNat :: bs)
      | none => none
    else none

/-- A byte string: hex, or quoted ASCII. -/
def byteString : Text → Option (List Byte)
  | [] => some []
  | c :: cs => if c = quoteChar then quotedBytes cs else hexBytes (c :: cs)

/-- The digits of a number in a base, most significant first. -/
def digits (base : Nat) : Nat → Text → Option Nat
  | n, [] => some n
  | n, c :: cs =>
    match hexDigit c with
    | some d => if d < base then digits base (base * n + d) cs else none
    | none => none

/-- A number: decimal, or hex with `0x`. -/
def number : Text → Option Nat
  | [] => none
  | '0' :: 'x' :: d :: ds => digits 16 0 (d :: ds)
  | c :: cs => digits 10 0 (c :: cs)

/-- A number that a field of `w` bits holds. -/
def numberOf (w : Nat) (t : Text) : Option (BitVec w) :=
  match number t with
  | some n => if n < 2 ^ w then some (BitVec.ofNat w n) else none
  | none => none

/-- The `name=value` operand of a token. -/
def splitField : Text → Option (Text × Text)
  | [] => none
  | '=' :: value => some ([], value)
  | c :: cs =>
    match splitField cs with
    | some (name, value) => some (c :: name, value)
    | none => none

/-- Read all operands of a line, in the order they stand. -/
def splitFields : List Text → Option (List (Text × Text))
  | [] => some []
  | t :: ts =>
    match splitField t, splitFields ts with
    | some f, some fs => some (f :: fs)
    | _, _ => none

def nameKey : Text := ['k', 'e', 'y']
def nameSkip : Text := ['s', 'k', 'i', 'p']
def nameData : Text := ['d', 'a', 't', 'a']
def nameCount : Text := ['c', 'o', 'u', 'n', 't']
def nameRounds : Text := ['r', 'o', 'u', 'n', 'd', 's']
def nameKeyNonce : Text := ['k', 'e', 'y', 'n', 'o', 'n', 'c', 'e']
def nameNonce : Text := ['n', 'o', 'n', 'c', 'e']
def nameSeed : Text := ['s', 'e', 'e', 'd']

/-- The mnemonics of R97 and R103, by the form of their operands. -/
inductive AsmForm where
  | status | discard | arc4Init | arc4Xfrm | arc4Enc | arc4Dec | arc4Ks
  | salsaInit | salsaXfrm | salsaEnc | salsaDec | salsaKs
  | xxteaInit | xxteaEnc | xxteaDec | isaacInit | isaacNext
  deriving DecidableEq, Repr

/-- The spelling of each mnemonic (R97, R103). -/
def asmNames : List (Text × AsmForm) :=
  [(['S', 'T', 'A', 'T', 'U', 'S'], .status),
   (['D', 'I', 'S', 'C', 'A', 'R', 'D'], .discard),
   (['A', 'R', 'C', '4', '_', 'I', 'N', 'I', 'T'], .arc4Init),
   (['A', 'R', 'C', '4', '_', 'X', 'F', 'R', 'M'], .arc4Xfrm),
   (['A', 'R', 'C', '4', '_', 'E', 'N', 'C'], .arc4Enc),
   (['A', 'R', 'C', '4', '_', 'D', 'E', 'C'], .arc4Dec),
   (['A', 'R', 'C', '4', '_', 'K', 'S'], .arc4Ks),
   (['S', 'A', 'L', 'S', 'A', '_', 'I', 'N', 'I', 'T'], .salsaInit),
   (['S', 'A', 'L', 'S', 'A', '_', 'X', 'F', 'R', 'M'], .salsaXfrm),
   (['S', 'A', 'L', 'S', 'A', '_', 'E', 'N', 'C'], .salsaEnc),
   (['S', 'A', 'L', 'S', 'A', '_', 'D', 'E', 'C'], .salsaDec),
   (['S', 'A', 'L', 'S', 'A', '_', 'K', 'S'], .salsaKs),
   (['X', 'X', 'T', 'E', 'A', '_', 'I', 'N', 'I', 'T'], .xxteaInit),
   (['X', 'X', 'T', 'E', 'A', '_', 'E', 'N', 'C'], .xxteaEnc),
   (['X', 'X', 'T', 'E', 'A', '_', 'D', 'E', 'C'], .xxteaDec),
   (['I', 'S', 'A', 'A', 'C', '_', 'I', 'N', 'I', 'T'], .isaacInit),
   (['I', 'S', 'A', 'A', 'C', '_', 'N', 'E', 'X', 'T'], .isaacNext)]

/-- A line of one byte-string operand of the given name. -/
def oneBytes (name : Text) (mk : List Byte → AsmLine) : List (Text × Text) → Option AsmLine
  | [(n, v)] => if n = name then (byteString v).map mk else none
  | _ => none

/-- A line of one operand, the count of a format G command. -/
def oneCount (mk : BitVec 16 → AsmLine) : List (Text × Text) → Option AsmLine
  | [(n, v)] => if n = nameCount then (numberOf 16 v).map mk else none
  | _ => none

/-- `ARC4_INIT key=<bytes> [skip=<n>]`. -/
def readArc4Init : List (Text × Text) → Option AsmLine
  | [(n, v)] => if n = nameKey then (byteString v).map fun k => .arc4Init k none else none
  | [(n, v), (m, u)] =>
    if n = nameKey ∧ m = nameSkip then
      match byteString v, numberOf 32 u with
      | some k, some skip => some (.arc4Init k (some skip))
      | _, _ => none
    else none
  | _ => none

/-- `SALSA_INIT rounds=<n> keynonce=<bytes>`, or with `key=<bytes> nonce=<bytes>`. -/
def readSalsaInit : List (Text × Text) → Option AsmLine
  | [(n, v), (m, u)] =>
    if n = nameRounds ∧ m = nameKeyNonce then
      match numberOf 8 v, byteString u with
      | some r, some k => some (.salsaInit r k)
      | _, _ => none
    else none
  | [(n, v), (m, u), (l, t)] =>
    if n = nameRounds ∧ m = nameKey ∧ l = nameNonce then
      match numberOf 8 v, byteString u, byteString t with
      | some r, some k, some nonce => some (.salsaInitParts r k nonce)
      | _, _, _ => none
    else none
  | _ => none

/-- `ISAAC_INIT [seed=<bytes>]`. -/
def readIsaacInit : List (Text × Text) → Option AsmLine
  | [] => some (.isaacInit none)
  | [(n, v)] => if n = nameSeed then (byteString v).map fun k => .isaacInit (some k) else none
  | _ => none

/-- The operands each mnemonic takes (R102, R103), in the order R102 writes them. -/
def readOperands : AsmForm → List (Text × Text) → Option AsmLine
  | .status, fs => if fs = [] then some .status else none
  | .discard, fs => if fs = [] then some .discard else none
  | .arc4Init, fs => readArc4Init fs
  | .arc4Xfrm, fs => oneBytes nameData .arc4Xfrm fs
  | .arc4Enc, fs => oneBytes nameData .arc4Enc fs
  | .arc4Dec, fs => oneBytes nameData .arc4Dec fs
  | .arc4Ks, fs => oneCount .arc4Ks fs
  | .salsaInit, fs => readSalsaInit fs
  | .salsaXfrm, fs => oneBytes nameData .salsaXfrm fs
  | .salsaEnc, fs => oneBytes nameData .salsaEnc fs
  | .salsaDec, fs => oneBytes nameData .salsaDec fs
  | .salsaKs, fs => oneCount .salsaKs fs
  | .xxteaInit, fs => oneBytes nameKey .xxteaInit fs
  | .xxteaEnc, fs => oneBytes nameData .xxteaEnc fs
  | .xxteaDec, fs => oneBytes nameData .xxteaDec fs
  | .isaacInit, fs => readIsaacInit fs
  | .isaacNext, fs => oneCount .isaacNext fs

/-- Read one line of R102: the mnemonic, then its operands. A line that is empty or a comment holds no command. -/
def readLine (line : Text) : Option AsmLine :=
  match tokens false [] line with
  | [] => none
  | m :: ops =>
    match asmNames.lookup m, splitFields ops with
    | some f, some fs => readOperands f fs
    | _, _ => none

/-! ### Writing a response (R102) -/

/-- One upper-case hex digit. -/
def hexChar (n : Nat) : Char := if n < 10 then Char.ofNat (48 + n) else Char.ofNat (55 + n)

/-- Bytes as hex digit pairs without separators. -/
def hexText : List Byte → Text
  | [] => []
  | b :: bs => hexChar (b.toNat / 16) :: hexChar (b.toNat % 16) :: hexText bs

/-- The status names of R96. -/
def Status.name : Status → String
  | .ok => "OK"
  | .invalidKey => "InvalidKey"
  | .invalidParameter => "InvalidParameter"
  | .invalidSeed => "InvalidSeed"
  | .errOpcode => "ERR_OPCODE"
  | .errPhase => "ERR_PHASE"
  | .errFormat => "ERR_FORMAT"

/-- A response as R102 writes it after the arrow: the status name and, after success, the payload in hex. -/
def Response.text (r : Response) : String :=
  if r.status = .ok ∧ r.payload ≠ [] then r.status.name ++ " " ++ String.ofList (hexText r.payload)
  else r.status.name

end Sys2Proof.Machine
end

