-- ==== Sys2Proof/Safety.lean ====
section
/-! DEFINITION. What counts as a sound state of the block (the invariants of R25, R26, R29 and R95), the status a
command is to be answered with (R220), and a run of commands (R9, R282), in the terms the statements use. -/

namespace Sys2Proof.Machine

/-- `S` is a permutation: every byte value occurs exactly once (R25). -/
def Arc4Ctx.Inv (c : Arc4Ctx) : Prop := ∀ v : Byte, ∃! i : Byte, rd c.S i = v

/-- The matrix keeps the layout of R26 and R147: the constant words of one of the two key lengths, with the key
twice for the short key; the round count is one of 8, 12, 20 (R34). -/
def SalsaCtx.Inv (c : SalsaCtx) : Prop :=
  (c.ROUNDS = 8 ∨ c.ROUNDS = 12 ∨ c.ROUNDS = 20) ∧
  c.X[0] = 0x61707865 ∧ c.X[15] = 0x6B206574 ∧
  ((c.X[5] = 0x3320646E ∧ c.X[10] = 0x79622D32) ∨
   (c.X[5] = 0x3120646E ∧ c.X[10] = 0x79622D36 ∧
    c.X[11] = c.X[1] ∧ c.X[12] = c.X[2] ∧ c.X[13] = c.X[3] ∧ c.X[14] = c.X[4]))

/-- R29: the countdown is at most 256, at most 3 bytes wait, and they are the last bytes of the word drawn last. -/
def IsaacCtx.Inv (c : IsaacCtx) : Prop :=
  c.CNT ≤ 256 ∧ c.OBUF.length ≤ 3 ∧
  (c.OBUF ≠ [] → c.CNT ≤ 255 ∧
    c.OBUF = (bytesLe32 (rd c.RSL (drawIndex c.CNT))).drop (4 - c.OBUF.length))

/-- The invariant of the live context. -/
def Ctx.Inv : Ctx → Prop
  | .none => True
  | .arc4 c => c.Inv
  | .salsa20 c => c.Inv
  | .xxtea _ => True
  | .isaac c => c.Inv

/-- R95: no payload unless the status is `OK`, and `RLEN` holds the length. -/
def Response.Inv (r : Response) : Prop := (r.status ≠ .ok → r.payload = []) ∧ r.payload.length < 65536

/-- The invariant of the machine. -/
def State.Inv (s : State) : Prop := s.ctx.Inv ∧ ∀ r ∈ s.sent, r.Inv

/-- `s` after a command that left the context `c` and was answered with a status and a payload. -/
def State.answered (s : State) (c : Ctx) (st : Status) (payload : List Byte) : State :=
  { s with ctx := c, sent := s.sent ++ [{ status := st, payload := payload }] }

/-- `s` after a command that failed: nothing but the response (R225, R251). -/
def State.failed (s : State) (st : Status) : State := s.answered s.ctx st []

/-- Step 2 of R220, on the fields of the record: what makes a listed command fail with `ERR_FORMAT` (R246). -/
abbrev formatError (i : Instr) : Prop :=
  (i.arg ≠ 0 ∧ i.op ≠ .salsaInit) ∨
  (i.operand ≠ 0 ∧ i.op ≠ .arc4Init) ∨
  ((i.op = .status ∨ i.op = .discard) ∧ i.len ≠ 0) ∨
  ((i.op = .xxteaEnc ∨ i.op = .xxteaDec) ∧ i.len.toNat % 4 ≠ 0)

/-- Step 3 of R220: what makes a command fail with `ERR_PHASE` when its format is right (R245). -/
abbrev phaseError (alg : Alg) (i : Instr) : Prop :=
  ((i.op = .arc4Xfrm ∨ i.op = .arc4Ks) ∧ alg ≠ .arc4) ∨
  (i.op = .salsaXfrm ∧ alg ≠ .salsa20) ∨
  ((i.op = .xxteaEnc ∨ i.op = .xxteaDec) ∧ alg ≠ .xxtea) ∨
  (i.op = .isaacNext ∧ alg ≠ .isaac)

/-- Step 4 of R220, length test of a key (R241). -/
abbrev keyError (i : Instr) : Prop :=
  (i.op = .arc4Init ∧ (i.len.toNat < 5 ∨ 256 < i.len.toNat)) ∨
  (i.op = .salsaInit ∧ i.len.toNat ≠ 24 ∧ i.len.toNat ≠ 40) ∨
  (i.op = .xxteaInit ∧ i.len.toNat ≠ 16)

/-- Step 4 of R220, length test of a seed (R243). -/
abbrev seedError (i : Instr) : Prop := i.op = .isaacInit ∧ (1024 < i.len.toNat ∨ i.len.toNat % 4 ≠ 0)

/-- Step 4 of R220, the parameter test (R242). -/
abbrev parameterError (i : Instr) : Prop := i.op = .salsaInit ∧ i.arg ≠ 8 ∧ i.arg ≠ 12 ∧ i.arg ≠ 20

/-- The status of a listed command, in the order of R220 and R250. -/
def expectedStatus (alg : Alg) (i : Instr) : Status :=
  if formatError i then .errFormat
  else if phaseError alg i then .errPhase
  else if keyError i then .invalidKey
  else if seedError i then .invalidSeed
  else if parameterError i then .invalidParameter
  else .ok

/-- The tag a completed command leaves (R221). -/
def tagAfter (alg : Alg) : Op → Alg
  | .discard => .none
  | .arc4Init => .arc4
  | .salsaInit => .salsa20
  | .xxteaInit => .xxtea
  | .isaacInit => .isaac
  | .status | .arc4Xfrm | .arc4Ks | .salsaXfrm | .xxteaEnc | .xxteaDec | .isaacNext => alg

/-- The host sends a list of commands, one after the other (R70, R281). -/
def sendCommands (is : List Instr) : List PortEvent := sendBytes (is.flatMap encode)

end Sys2Proof.Machine
end

