-- ==== Sys2Proof/Certificates/Slice0/Obligations.lean ====
section
/-! DEFINITION. The statements for the provers. Each docstring names the rule of the spec it formalises. In them
`s.answered c st p` is `s` with the context `c` and one more response, status `st` and payload `p`, everything else
unchanged; `s.failed st` is `s` with nothing but the response of a failed command. So each completion statement is
its own frame. `f^[n]` is `f` applied `n` times. -/

open Sys2Proof Sys2Proof.Machine

/-! ### Encoding and the port -/

/-- R90 to R94, R97, R101: the decoder reads back every command the port can carry, whole, and leaves what follows. -/
def Obligations.DecodeOfEncodeIsTheCommand : Prop :=
  ∀ (i : Instr) (rest : List Byte), i.WellFormed → decode (encode i ++ rest) = .command i rest

/-- R93, R97, R101: whatever the decoder reads as a command is the encoding of that command, and what it leaves is
what follows it. -/
def Obligations.EncodeOfDecodeIsTheBytes : Prop :=
  ∀ (bs rest : List Byte) (i : Instr), decode bs = .command i rest → i.WellFormed ∧ bs = encode i ++ rest

/-- R93: the 32-bit port carries the same command, its padding ignored. -/
def Obligations.WordPortCarriesTheSameCommand : Prop :=
  ∀ (i : Instr) (rest : List Word), i.WellFormed → decodeWords (encodeWords i ++ rest) = .command i rest

/-- R97 to R99: a few commands written out on the byte-wide port from the tables of R91, R92 and R97. -/
def Obligations.WrittenOutCommandsDecode : Prop :=
  decode [0x00, 0x00, 0x00, 0x00, 0x00, 0x00, 0x00, 0x00] = .command (.status 0 0 0) [] ∧
  decode [0x05, 0x00, 0x00, 0x10, 0x00, 0x01, 0x00, 0x00, 0xA, 0xB, 0xC, 0xD, 0xE]
    = .command (.arc4Init 0 0x100 [0xA, 0xB, 0xC, 0xD, 0xE]) [] ∧
  decode [0x02, 0x00, 0x14, 0x20, 0x00, 0x00, 0x00, 0x00, 0x11, 0x22, 0x33]
    = .command (.salsaInit 20 0 [0x11, 0x22]) [0x33] ∧
  decode [0x04, 0x00, 0x00, 0x32, 0x00, 0x00, 0x00, 0x00, 0xDE, 0xAD, 0xBE, 0xEF]
    = .command (.xxteaDec 0 0 [0xDE, 0xAD, 0xBE, 0xEF]) [] ∧
  decode [0x03, 0x02, 0x00, 0x41, 0x00, 0x00, 0x00, 0x00] = .command (.isaacNext 0 0x203 0) [] ∧
  decode [0x05, 0x00, 0x00, 0x13, 0x00, 0x00, 0x00, 0x00, 0xAA] = .unlisted 0x13 [0xAA]

/-- R97: "`OPCODE` is matched in full": a byte selects a row exactly when it is that row's code, so no two rows share
a code; and the twelve numbers of the table. -/
def Obligations.OpcodeSelectsExactlyItsRow : Prop :=
  (∀ (b : Byte) (o : Op), Op.ofCode b = some o ↔ o.code = b) ∧
  Op.status.code = 0x00 ∧ Op.discard.code = 0x01 ∧
  Op.arc4Init.code = 0x10 ∧ Op.arc4Xfrm.code = 0x11 ∧ Op.arc4Ks.code = 0x12 ∧
  Op.salsaInit.code = 0x20 ∧ Op.salsaXfrm.code = 0x21 ∧
  Op.xxteaInit.code = 0x30 ∧ Op.xxteaEnc.code = 0x31 ∧ Op.xxteaDec.code = 0x32 ∧
  Op.isaacInit.code = 0x40 ∧ Op.isaacNext.code = 0x41

/-- R95, R96: the three fields of `RESP`, how a response stands on the byte-wide port, and the seven codes. -/
def Obligations.ResponseWordFields : Prop :=
  (∀ r : Response, r.payload.length < 65536 →
    r.word.extractLsb' 24 8 = r.status.code ∧ r.word.extractLsb' 16 8 = 0 ∧
    (r.word.extractLsb' 0 16).toNat = r.payload.length ∧
    r.bytes = bytesLe32 r.word ++ r.payload) ∧
  Status.ok.code = 0x00 ∧ Status.invalidKey.code = 0x01 ∧ Status.invalidParameter.code = 0x02 ∧
  Status.invalidSeed.code = 0x03 ∧ Status.errOpcode.code = 0x10 ∧ Status.errPhase.code = 0x11 ∧
  Status.errFormat.code = 0x12

/-- R220: a step runs the decoded command, after taking it from the port. That the port is a list of the host's moves,
and that what stands behind a reset does not take part in the decoding, are the model's choice (log entries 1 and 3). -/
def Obligations.StepRunsTheDecodedCommand : Prop :=
  ∀ (s : State) (i : Instr) (rest : List Byte), decode (portBytes s.port) = .command i rest →
    step s = exec i { s with port := sendBytes rest ++ fromReset s.port }

/-- R70, R93, R101: a step takes one whole command and runs it. That later moves wait in a list, and that a whole
command runs although a reset stands behind it, are the model's choice (log entries 1 and 3). -/
def Obligations.StepTakesExactlyOneCommand : Prop :=
  ∀ (s : State) (i : Instr) (more : List PortEvent), i.WellFormed → s.port = sendBytes (encode i) ++ more →
    step s = exec i { s with port := more }

/-- R99, R244: a whole header with an unlisted opcode is answered with `ERR_OPCODE`, takes no payload from the port
and changes no state; a listed command is never answered so. That nothing but the header is taken is R99 (log entry 8).
That later moves wait in a list, and that a whole header is answered although a reset stands behind it, are the model's
choice (log entries 1 and 3). -/
def Obligations.UnlistedOpcodeIsRefusedAlone : Prop :=
  (∀ (s : State) (w0 w1 : Word) (more : List PortEvent),
    w0.extractLsb' 24 8 ∉
      ([0x00, 0x01, 0x10, 0x11, 0x12, 0x20, 0x21, 0x30, 0x31, 0x32, 0x40, 0x41] : List Byte) →
    s.port = sendBytes (bytesLe32 w0 ++ bytesLe32 w1) ++ more →
      step s = .next (({ s with port := more } : State).failed .errOpcode)) ∧
  (∀ (s t : State) (i : Instr), exec i s = .next t → ∀ r : Response, t.sent = s.sent ++ [r] → r.status ≠ .errOpcode)

/-- R258: with nothing at the port the block keeps its state. -/
def Obligations.IdleBlockKeepsItsState : Prop := ∀ s : State, s.port = [] → step s = .next s

/-- R270, R271, by log entry 3: the reset input, after any part of a command or none, leaves no context and gives no
response; what was sent of the command is gone. -/
def Obligations.ResetInputClearsTheContext : Prop :=
  ∀ (s : State) (part : List Byte) (more : List PortEvent), decode part = .incomplete →
    s.port = sendBytes part ++ .reset :: more → step s = .next { ctx := .none, port := more, sent := s.sent }

/-- R281 and `93_implementation_defined.md` U5, by log entry 5: the one thing a step refuses is the beginning of a
command with nothing behind it. Everything else answers with a next state. -/
def Obligations.StepRefusesOnlyAnUnfinishedCommand : Prop :=
  ∀ s : State,
    (step s = .refused .incompleteCommand ∧ s.port ≠ [] ∧ decode (portBytes s.port) = .incomplete ∧ fromReset s.port = []) ∨
    (∃ t, step s = .next t ∧
      ¬ (s.port ≠ [] ∧ decode (portBytes s.port) = .incomplete ∧ fromReset s.port = []))

/-- R33, R271: the reset state, and "The reset state equals the state after `DISCARD`". -/
def Obligations.ResetStateHoldsNothing : Prop :=
  State.reset.ctx = .none ∧ State.reset.ctx.alg.code = 0 ∧ State.reset.port = [] ∧ State.reset.sent = [] ∧
  ∀ s : State, exec (.discard 0 0 0) s = .next (s.answered State.reset.ctx .ok [])

/-! ### All commands -/

/-- R9, R24, R95: every command, from every state, gets exactly one response; the new context and the response depend
on the old context alone, and nothing is taken from the port by it. -/
def Obligations.CommandIsAFunctionOfTheContext : Prop :=
  ∀ (i : Instr) (s s' : State), s.ctx = s'.ctx →
    ∃ (c : Ctx) (st : Status) (p : List Byte),
      exec i s = .next (s.answered c st p) ∧ exec i s' = .next (s'.answered c st p)

/-- R220, R250: the status is the one of the first check that fails, in the order opcode (see
`UnlistedOpcodeIsRefusedAlone`), format, phase, key length or seed, parameter; `OK` when none fails. -/
def Obligations.StatusFollowsTheCheckOrder : Prop :=
  ∀ (i : Instr) (s : State), i.WellFormed →
    ∃ (c : Ctx) (p : List Byte), exec i s = .next (s.answered c (expectedStatus s.ctx.alg i) p)

/-- R225, R251: a command answered with a status other than `OK` leaves everything as it was and sends no payload. -/
def Obligations.FailedCommandChangesNothing : Prop :=
  ∀ (i : Instr) (s : State) (c : Ctx) (st : Status) (p : List Byte), exec i s = .next (s.answered c st p) →
    st ≠ .ok → c = s.ctx ∧ p = []

/-- R100, R246: `ERR_FORMAT` exactly when a field that must be 0 is not, or an XXTEA data length is no multiple of 4. -/
def Obligations.FormatErrorExactly : Prop :=
  ∀ (i : Instr) (s : State), i.WellFormed → (exec i s = .next (s.failed .errFormat) ↔ formatError i)

/-- R245: `ERR_PHASE` exactly when the tag is not the command's algorithm and the format checks, which come first
(R250), pass. -/
def Obligations.PhaseErrorExactly : Prop :=
  ∀ (i : Instr) (s : State), i.WellFormed →
    (exec i s = .next (s.failed .errPhase) ↔ ¬ formatError i ∧ phaseError s.ctx.alg i)

/-- R241, R242, R243: the key, parameter and seed errors exactly when their test fails and no earlier one does
(R250). -/
def Obligations.KeyMaterialErrorsExactly : Prop :=
  ∀ (i : Instr) (s : State), i.WellFormed →
    (exec i s = .next (s.failed .invalidKey) ↔ ¬ formatError i ∧ keyError i) ∧
    (exec i s = .next (s.failed .invalidSeed) ↔ ¬ formatError i ∧ seedError i) ∧
    (exec i s = .next (s.failed .invalidParameter) ↔ ¬ formatError i ∧ ¬ keyError i ∧ parameterError i)

/-- R221: the tag after a command. -/
def Obligations.TagFollowsTheTransitionTable : Prop :=
  ∀ (i : Instr) (s : State) (c : Ctx) (st : Status) (p : List Byte), exec i s = .next (s.answered c st p) →
    c.alg = if st = .ok then tagAfter s.ctx.alg i.op else s.ctx.alg

/-- R224, R31: a completed initialisation builds the same context whatever was live before, and answers the same. -/
def Obligations.InitialisationForgetsTheOldContext : Prop :=
  ∀ (i : Instr) (s s' : State), i.op ∈ [Op.arc4Init, Op.salsaInit, Op.xxteaInit, Op.isaacInit] →
    ∀ (c : Ctx) (p : List Byte), exec i s = .next (s.answered c .ok p) →
      p = [] ∧ exec i s' = .next (s'.answered c .ok [])

/-- R9, R95, R281, R282: from every state with nothing at the port, a list of commands that the host sends one after
the other runs to its end in as many steps: it is the commands applied in order, it leaves nothing in flight, and it
gives one response per command. That all commands stand at the port beforehand, where R281 has the host wait for each
response, is the model's choice (log entry 1). -/
def Obligations.RunOfCommandsCompletes : Prop :=
  ∀ (cmds : List Instr) (s : State), (∀ i ∈ cmds, i.WellFormed) → s.port = [] →
    ∃ S : Nat → State, S 0 = s ∧
      (∀ (k : Nat) (i : Instr), cmds[k]? = some i → exec i (S k) = .next (S (k + 1))) ∧
      Host.Core.run Sys2Proof.core cmds.length ({ s with port := sendCommands cmds } : State)
        = .next (S cmds.length) ∧
      (S cmds.length).port = [] ∧
      ∃ rs : List Response, rs.length = cmds.length ∧ (S cmds.length).sent = s.sent ++ rs

/-- R25, R26, R29, R95 at reset. -/
def Obligations.ResetMeetsTheInvariant : Prop := State.reset.Inv

/-- R25, R29, R34, R95, R126 (a): every step, of any kind, keeps the invariant, in every state that meets it. -/
def Obligations.EveryStepKeepsTheInvariant : Prop := ∀ s t : State, s.Inv → step s = .next t → t.Inv

/-! ### Control commands -/

/-- R21, R222: `STATUS` from every state, with the number of each tag. -/
def Obligations.StatusReportsTagAndRounds : Prop :=
  ∀ s : State,
    (∀ a : SalsaCtx, s.ctx = .salsa20 a →
      exec (.status 0 0 0) s = .next (s.answered s.ctx .ok [0x02, a.ROUNDS.setWidth 8])) ∧
    (s.ctx = .none → exec (.status 0 0 0) s = .next (s.answered s.ctx .ok [0x00, 0x00])) ∧
    (∀ a : Arc4Ctx, s.ctx = .arc4 a → exec (.status 0 0 0) s = .next (s.answered s.ctx .ok [0x01, 0x00])) ∧
    (∀ a : XxteaCtx, s.ctx = .xxtea a → exec (.status 0 0 0) s = .next (s.answered s.ctx .ok [0x03, 0x00])) ∧
    (∀ a : IsaacCtx, s.ctx = .isaac a → exec (.status 0 0 0) s = .next (s.answered s.ctx .ok [0x04, 0x00])) ∧
    (∀ (arg : Byte) (len : BitVec 16) (operand : Word), arg ≠ 0 ∨ len ≠ 0 ∨ operand ≠ 0 →
      exec (.status arg len operand) s = .next (s.failed .errFormat))

/-- R223: `DISCARD` from every state. -/
def Obligations.DiscardEndsTheContext : Prop :=
  ∀ s : State, exec (.discard 0 0 0) s = .next (s.answered .none .ok []) ∧
    ∀ (arg : Byte) (len : BitVec 16) (operand : Word), arg ≠ 0 ∨ len ≠ 0 ∨ operand ≠ 0 →
      exec (.discard arg len operand) s = .next (s.failed .errFormat)

/-! ### ARC4 -/

/-- R120, R274: the exchange, equal indices included. -/
def Obligations.SwapIsATrueExchange : Prop :=
  ∀ (S : Vector Byte 256) (a b k : Byte),
    rd (swap S a b) k = if k = a then rd S b else if k = b then rd S a else rd S k

/-- R121: the key schedule as the spec's loop: a permutation and an index before each of the 256 rounds. -/
def Obligations.KeyScheduleFollowsTheLoop : Prop :=
  ∀ key : List Byte, 5 ≤ key.length → key.length ≤ 256 →
    ∃ (S : Nat → Vector Byte 256) (j : Nat → Byte),
      (∀ k : Byte, rd (S 0) k = k) ∧ j 0 = 0 ∧
      (∀ i, i < 256 →
        j (i + 1) = j i + rd (S i) (BitVec.ofNat 8 i) + key.getD (i % key.length) 0 ∧
        S (i + 1) = swap (S i) (BitVec.ofNat 8 i) (j (i + 1))) ∧
      ksa key = S 256

/-- R122: one step of the stream generator, every read of the last line made after the exchange. -/
def Obligations.GeneratorStepEquations : Prop :=
  ∀ c : Arc4Ctx,
    let i := c.I + 1
    let j := c.J + rd c.S i
    (prga c).2.I = i ∧ (prga c).2.J = j ∧
    rd (prga c).2.S i = rd c.S j ∧ rd (prga c).2.S j = rd c.S i ∧
    (∀ k : Byte, k ≠ i → k ≠ j → rd (prga c).2.S k = rd c.S k) ∧
    (prga c).1 = rd (prga c).2.S (rd (prga c).2.S i + rd (prga c).2.S j)

/-- R123: `ARC4_INIT`. -/
def Obligations.Arc4InitSchedulesAndSkips : Prop :=
  ∀ (s : State) (skip : Word) (key : List Byte),
    (5 ≤ key.length → key.length ≤ 256 →
      exec (.arc4Init 0 skip key) s
        = .next (s.answered (.arc4 ((fun c => (prga c).2)^[skip.toNat] { S := ksa key, I := 0, J := 0 })) .ok [])) ∧
    (key.length < 5 ∨ 256 < key.length → exec (.arc4Init 0 skip key) s = .next (s.failed .invalidKey))

/-- R124: `ARC4_XFRM`: output byte `k` is input byte `k` with the `k`-th generator byte. -/
def Obligations.Arc4TransformXorsTheStream : Prop :=
  ∀ (s : State) (c : Arc4Ctx) (data : List Byte), s.ctx = .arc4 c →
    ∃ out : List Byte, out.length = data.length ∧
      (∀ k, k < data.length → out.getD k 0 = data.getD k 0 ^^^ (prga ((fun c => (prga c).2)^[k] c)).1) ∧
      exec (.arc4Xfrm 0 0 data) s = .next (s.answered (.arc4 ((fun c => (prga c).2)^[data.length] c)) .ok out)

/-- R125: `ARC4_KS`: output byte `k` is the `k`-th generator byte. -/
def Obligations.Arc4KeystreamIsTheStream : Prop :=
  ∀ (s : State) (c : Arc4Ctx) (len : BitVec 16), s.ctx = .arc4 c →
    ∃ out : List Byte, out.length = len.toNat ∧
      (∀ k, k < len.toNat → out.getD k 0 = (prga ((fun c => (prga c).2)^[k] c)).1) ∧
      exec (.arc4Ks 0 len 0) s = .next (s.answered (.arc4 ((fun c => (prga c).2)^[len.toNat] c)) .ok out)

/-- R125: "`ARC4_KS count=n` returns the same bytes as `ARC4_XFRM` on `n` zero bytes and leaves the same state", from
every state. -/
def Obligations.Arc4KeystreamIsTransformOfZeros : Prop :=
  ∀ (s : State) (len : BitVec 16),
    exec (.arc4Ks 0 len 0) s = exec (.arc4Xfrm 0 0 (List.replicate len.toNat 0)) s

/-- R124, R126 (b): an input may be split anywhere. -/
def Obligations.Arc4InputMaySplitAnywhere : Prop :=
  ∀ (s : State) (c : Arc4Ctx) (d1 d2 : List Byte), s.ctx = .arc4 c →
    ∃ (c1 c2 : Ctx) (o1 o2 : List Byte),
      exec (.arc4Xfrm 0 0 d1) s = .next (s.answered c1 .ok o1) ∧
      exec (.arc4Xfrm 0 0 d2) (s.answered c1 .ok o1) = .next ((s.answered c1 .ok o1).answered c2 .ok o2) ∧
      exec (.arc4Xfrm 0 0 (d1 ++ d2)) s = .next (s.answered c2 .ok (o1 ++ o2))

/-- R126 (c), R276: what one context encrypts, an equal context decrypts. -/
def Obligations.Arc4DecryptsFromAnEqualContext : Prop :=
  ∀ (s s' : State) (c : Arc4Ctx) (data : List Byte), s.ctx = .arc4 c → s'.ctx = .arc4 c →
    ∃ (q : Ctx) (out : List Byte),
      exec (.arc4Xfrm 0 0 data) s = .next (s.answered q .ok out) ∧
      exec (.arc4Xfrm 0 0 out) s' = .next (s'.answered q .ok data)

/-- R123: a skip of `n` bytes is `n` bytes of keystream thrown away after an initialisation without a skip. -/
def Obligations.Arc4SkipDiscardsKeystream : Prop :=
  ∀ (s : State) (n : BitVec 16) (key : List Byte), 5 ≤ key.length → key.length ≤ 256 →
    ∃ (c0 c1 : Ctx) (out : List Byte),
      exec (.arc4Init 0 0 key) s = .next (s.answered c0 .ok []) ∧
      exec (.arc4Ks 0 n 0) (s.answered c0 .ok []) = .next ((s.answered c0 .ok []).answered c1 .ok out) ∧
      exec (.arc4Init 0 (n.setWidth 32) key) s = .next (s.answered c1 .ok [])

/-! ### Salsa20 -/

/-- R141 to R144: the quarter-round line by line, and the double-round in terms of eight quarter-rounds, the columns
first, then the rows. -/
def Obligations.DoubleRoundIsColumnsThenRows : Prop :=
  (∀ y0 y1 y2 y3 : Word,
    let z1 := y1 ^^^ (y0 + y3).rotateLeft 7
    let z2 := y2 ^^^ (z1 + y0).rotateLeft 9
    let z3 := y3 ^^^ (z2 + z1).rotateLeft 13
    let z0 := y0 ^^^ (z3 + z2).rotateLeft 18
    quarterRound y0 y1 y2 y3 = (z0, z1, z2, z3)) ∧
  ∀ x : Matrix,
    let c0 := quarterRound x[0] x[4] x[8] x[12]
    let c1 := quarterRound x[5] x[9] x[13] x[1]
    let c2 := quarterRound x[10] x[14] x[2] x[6]
    let c3 := quarterRound x[15] x[3] x[7] x[11]
    let r0 := quarterRound c0.1 c1.2.2.2 c2.2.2.1 c3.2.1
    let r1 := quarterRound c1.1 c2.2.2.2 c3.2.2.1 c0.2.1
    let r2 := quarterRound c2.1 c3.2.2.2 c0.2.2.1 c1.2.1
    let r3 := quarterRound c3.1 c0.2.2.2 c1.2.2.1 c2.2.1
    doubleRound x = #v[r0.1, r0.2.1, r0.2.2.1, r0.2.2.2, r1.2.2.2, r1.1, r1.2.1, r1.2.2.1,
      r2.2.2.1, r2.2.2.2, r2.1, r2.2.1, r3.2.1, r3.2.2.1, r3.2.2.2, r3.1]

/-- R145: a block has 64 bytes; byte `k` is byte `k mod 4` of mixed word `k div 4` plus input word `k div 4`. -/
def Obligations.SalsaBlockFeedsForward : Prop :=
  ∀ c : SalsaCtx, (salsaBlock c).length = 64 ∧
    ∀ (t : Fin 16) (k : Nat), k < 4 →
      (salsaBlock c).getD (4 * t.val + k) 0
        = byteOf ((doubleRound^[c.ROUNDS.toNat / 2] c.X)[t] + c.X[t]) k

/-- R146: the counter step adds 1 to the 64-bit number `X[9], X[8]`, wrapping at the top, and changes nothing else. -/
def Obligations.SalsaCounterIsSixtyFourBits : Prop :=
  ∀ c : SalsaCtx,
    ((salsaCount c).X[9] ++ (salsaCount c).X[8] : BitVec (32 + 32)) = (c.X[9] ++ c.X[8]) + 1 ∧
    (∀ t : Fin 16, t ≠ 8 → t ≠ 9 → (salsaCount c).X[t] = c.X[t]) ∧ (salsaCount c).ROUNDS = c.ROUNDS

/-- R140, R147, R148: `SALSA_INIT` with a legal length and round count: every word of the matrix. -/
def Obligations.SalsaInitLoadsTheMatrix : Prop :=
  ∀ (s : State) (rounds : Byte) (p : List Byte),
    (rounds = 8 ∨ rounds = 12 ∨ rounds = 20) → (p.length = 24 ∨ p.length = 40) →
    let w := fun k => le32 (p.getD k 0) (p.getD (k + 1) 0) (p.getD (k + 2) 0) (p.getD (k + 3) 0)
    let long := p.length = 40
    let h := if long then 16 else 0
    let n := if long then 32 else 16
    exec (.salsaInit rounds 0 p) s = .next (s.answered (.salsa20
      { X := #v[0x61707865, w 0, w 4, w 8, w 12, if long then 0x3320646E else 0x3120646E, w n, w (n + 4),
          0, 0, if long then 0x79622D32 else 0x79622D36, w h, w (h + 4), w (h + 8), w (h + 12), 0x6B206574],
        ROUNDS := rounds.setWidth 5 }) .ok [])

/-- R148, R250: the refusals of `SALSA_INIT`, the length test first. -/
def Obligations.SalsaInitRefusals : Prop :=
  ∀ (s : State) (rounds : Byte) (p : List Byte),
    (p.length ≠ 24 → p.length ≠ 40 → exec (.salsaInit rounds 0 p) s = .next (s.failed .invalidKey)) ∧
    ((p.length = 24 ∨ p.length = 40) → rounds ≠ 8 → rounds ≠ 12 → rounds ≠ 20 →
      exec (.salsaInit rounds 0 p) s = .next (s.failed .invalidParameter))

/-- R149, R150: `SALSA_XFRM`: output byte `k` is input byte `k` with byte `k mod 64` of the block at counter step
`k div 64`; the counter steps `ceil(LEN / 64)` times. -/
def Obligations.SalsaTransformXorsTheBlocks : Prop :=
  ∀ (s : State) (c : SalsaCtx) (data : List Byte), s.ctx = .salsa20 c →
    ∃ out : List Byte, out.length = data.length ∧
      (∀ k, k < data.length →
        out.getD k 0 = data.getD k 0 ^^^ (salsaBlock (salsaCount^[k / 64] c)).getD (k % 64) 0) ∧
      exec (.salsaXfrm 0 0 data) s
        = .next (s.answered (.salsa20 (salsaCount^[(data.length + 63) / 64] c)) .ok out)

/-- R151 (b): from counter 0, the context after `b` blocks is the starting one with the counter at `b`, low half in
`X[8]`, high half in `X[9]`. -/
def Obligations.SalsaBlockNumberIsTheCounter : Prop :=
  ∀ (c : SalsaCtx) (b : Nat), c.X[8] = 0 → c.X[9] = 0 →
    salsaCount^[b] c
      = { c with X := (c.X.set 8 (BitVec.ofNat 32 b)).set 9 (BitVec.ofNat 32 (b / 2 ^ 32)) }

/-- R151 (a), R26: no command changes a word other than `X[8]` and `X[9]`, or `ROUNDS`, of a Salsa20 context that it
does not replace. -/
def Obligations.SalsaKeyWordsStay : Prop :=
  ∀ (i : Instr) (s t : State) (c c' : SalsaCtx), i.op ≠ .salsaInit → s.ctx = .salsa20 c →
    exec i s = .next t → t.ctx = .salsa20 c' →
      c'.ROUNDS = c.ROUNDS ∧ ∀ k : Fin 16, k ≠ 8 → k ≠ 9 → c'.X[k] = c.X[k]

/-- R150, R277: an input may be split at a multiple of 64 bytes. -/
def Obligations.SalsaInputMaySplitAtBlocks : Prop :=
  ∀ (s : State) (c : SalsaCtx) (d1 d2 : List Byte), s.ctx = .salsa20 c → d1.length % 64 = 0 →
    ∃ (c1 c2 : Ctx) (o1 o2 : List Byte),
      exec (.salsaXfrm 0 0 d1) s = .next (s.answered c1 .ok o1) ∧
      exec (.salsaXfrm 0 0 d2) (s.answered c1 .ok o1) = .next ((s.answered c1 .ok o1).answered c2 .ok o2) ∧
      exec (.salsaXfrm 0 0 (d1 ++ d2)) s = .next (s.answered c2 .ok (o1 ++ o2))

/-- R151 (c), R276: what one context encrypts, an equal context decrypts. -/
def Obligations.SalsaDecryptsFromAnEqualContext : Prop :=
  ∀ (s s' : State) (c : SalsaCtx) (data : List Byte), s.ctx = .salsa20 c → s'.ctx = .salsa20 c →
    ∃ (q : Ctx) (out : List Byte),
      exec (.salsaXfrm 0 0 data) s = .next (s.answered q .ok out) ∧
      exec (.salsaXfrm 0 0 out) s' = .next (s'.answered q .ok data)

/-! ### XXTEA -/

/-- R175: `XXTEA_INIT`. -/
def Obligations.XxteaInitLoadsTheKey : Prop :=
  ∀ (s : State) (key : List Byte),
    let w := fun k => le32 (key.getD k 0) (key.getD (k + 1) 0) (key.getD (k + 2) 0) (key.getD (k + 3) 0)
    (key.length = 16 →
      exec (.xxteaInit 0 0 key) s = .next (s.answered (.xxtea { K := #v[w 0, w 4, w 8, w 12] }) .ok [])) ∧
    (key.length ≠ 16 → exec (.xxteaInit 0 0 key) s = .next (s.failed .invalidKey))

/-- R170 to R173, R176: the mixing function, and `XXTEA_ENC` of a block of `n ≥ 2` words as the spec's loop: `V r p`
is the block in round `r` before index `p` is changed, and the running sum of round `r` is `(r + 1) * DELTA`. -/
def Obligations.XxteaEncryptFollowsTheLoop : Prop :=
  (∀ (y z sum : Word) (p : Nat) (e : BitVec 2) (K : Vector Word 4),
    mx y z sum p e K =
      (((z >>> 5) ^^^ (y <<< 2)) + ((y >>> 3) ^^^ (z <<< 4))) ^^^
        ((sum ^^^ y) + (K.toList.getD ((p % 4) ^^^ e.toNat) 0 ^^^ z))) ∧
  ∀ (s : State) (a : XxteaCtx) (data : List Byte) (n : Nat), s.ctx = .xxtea a → data.length = 4 * n → 2 ≤ n →
    ∃ V : Nat → Nat → List Word,
      V 0 0 = wordsLe data ∧
      (∀ r p, r < 6 + 52 / n → p < n →
        let sum : Word := BitVec.ofNat 32 (r + 1) * 0x9E3779B9
        V r (p + 1) = (V r p).set p ((V r p).getD p 0 +
          mx ((V r p).getD ((p + 1) % n) 0) ((V r p).getD ((p + n - 1) % n) 0) sum p (BitVec.setWidth 2 (sum >>> 2)) a.K)) ∧
      (∀ r, r < 6 + 52 / n → V (r + 1) 0 = V r n) ∧
      exec (.xxteaEnc 0 0 data) s = .next (s.answered s.ctx .ok (serLe (V (6 + 52 / n) 0)))

/-- R170 to R172, R174, R177: `XXTEA_DEC` of a block of `n ≥ 2` words as the spec's loop: `V r k` is the block in
round `r` after `k` words were restored, from the last index down, and the sum of round `r` is `(q - r) * DELTA`. The
mixing function is the one that `XxteaEncryptFollowsTheLoop` writes out. -/
def Obligations.XxteaDecryptFollowsTheLoop : Prop :=
  ∀ (s : State) (a : XxteaCtx) (data : List Byte) (n : Nat), s.ctx = .xxtea a → data.length = 4 * n → 2 ≤ n →
    ∃ V : Nat → Nat → List Word,
      V 0 0 = wordsLe data ∧
      (∀ r k, r < 6 + 52 / n → k < n →
        let sum : Word := BitVec.ofNat 32 (6 + 52 / n - r) * 0x9E3779B9
        let p := n - 1 - k
        V r (k + 1) = (V r k).set p ((V r k).getD p 0 -
          mx ((V r k).getD ((p + 1) % n) 0) ((V r k).getD ((p + n - 1) % n) 0) sum p (BitVec.setWidth 2 (sum >>> 2)) a.K)) ∧
      (∀ r, r < 6 + 52 / n → V (r + 1) 0 = V r n) ∧
      exec (.xxteaDec 0 0 data) s = .next (s.answered s.ctx .ok (serLe (V (6 + 52 / n) 0)))

/-- R176, R177, R279: a block of 0 or 1 word comes back unchanged. -/
def Obligations.XxteaPassesShortBlocksThrough : Prop :=
  ∀ (s : State) (a : XxteaCtx) (data : List Byte), s.ctx = .xxtea a → (data.length = 0 ∨ data.length = 4) →
    exec (.xxteaEnc 0 0 data) s = .next (s.answered s.ctx .ok data) ∧
    exec (.xxteaDec 0 0 data) s = .next (s.answered s.ctx .ok data)

/-- R176 to R178: for every key and every block of whole words, decryption undoes encryption and encryption undoes
decryption; both complete, keep the length and leave the context. -/
def Obligations.XxteaDirectionsUndoEachOther : Prop :=
  ∀ (s s' : State) (a : XxteaCtx) (data : List Byte), s.ctx = .xxtea a → s'.ctx = .xxtea a → data.length % 4 = 0 →
    (∃ out : List Byte, out.length = data.length ∧
      exec (.xxteaEnc 0 0 data) s = .next (s.answered s.ctx .ok out) ∧
      exec (.xxteaDec 0 0 out) s' = .next (s'.answered s'.ctx .ok data)) ∧
    (∃ out : List Byte, out.length = data.length ∧
      exec (.xxteaDec 0 0 data) s = .next (s.answered s.ctx .ok out) ∧
      exec (.xxteaEnc 0 0 out) s' = .next (s'.answered s'.ctx .ok data))

/-! ### ISAAC -/

/-- R190, R191, R193: `mix` assignment by assignment (`a1` is `a` after its first assignment, and so on), and the
two passes as the spec's loops: the eight variables before each of the 64 groups, carried from the first pass into the
second, and the memory before each of them. Group `g` of the first pass adds the seed words at `8g .. 8g + 7`, of the
second the memory's own, and stores the mixed variables there. -/
def Obligations.IsaacMemoryIsFilledInTwoPasses : Prop :=
  (∀ a b c d e f g h : Word,
    let a1 := a ^^^ (b <<< 11)
    let d1 := d + a1
    let b1 := b + c
    let b2 := b1 ^^^ (c >>> 2)
    let e1 := e + b2
    let c1 := c + d1
    let c2 := c1 ^^^ (d1 <<< 8)
    let f1 := f + c2
    let d2 := d1 + e1
    let d3 := d2 ^^^ (e1 >>> 16)
    let g1 := g + d3
    let e2 := e1 + f1
    let e3 := e2 ^^^ (f1 <<< 10)
    let h1 := h + e3
    let f2 := f1 + g1
    let f3 := f2 ^^^ (g1 >>> 4)
    let a2 := a1 + f3
    let g2 := g1 + h1
    let g3 := g2 ^^^ (h1 <<< 8)
    let b3 := b2 + g3
    let h2 := h1 + a2
    let h3 := h2 ^^^ (a2 >>> 9)
    let c3 := c2 + h3
    let a3 := a2 + b3
    mix { a := a, b := b, c := c, d := d, e := e, f := f, g := g, h := h }
      = { a := a3, b := b3, c := c3, d := d3, e := e3, f := f3, g := g3, h := h3 }) ∧
  ∀ seed : Vector Word 256,
    let z : Word := 0x9E3779B9
    let add := fun (m : Mixers) (src : Vector Word 256) (g : Nat) =>
      let w := fun k => rd src (BitVec.ofNat 8 (8 * g + k))
      ({ a := m.a + w 0, b := m.b + w 1, c := m.c + w 2, d := m.d + w 3,
         e := m.e + w 4, f := m.f + w 5, g := m.g + w 6, h := m.h + w 7 } : Mixers)
    let stored := fun (m : Mixers) (old new : Vector Word 256) (g : Nat) =>
      ∀ k : Byte, rd new k =
        if k.toNat / 8 = g then [m.a, m.b, m.c, m.d, m.e, m.f, m.g, m.h].getD (k.toNat % 8) 0 else rd old k
    ∃ (m : Nat → Mixers) (mm : Nat → Vector Word 256),
      m 0 = mix (mix (mix (mix { a := z, b := z, c := z, d := z, e := z, f := z, g := z, h := z }))) ∧
      (∀ g, g < 32 →
        m (g + 1) = mix (add (m g) seed g) ∧
        stored (m (g + 1)) (mm g) (mm (g + 1)) g ∧
        m (32 + g + 1) = mix (add (m (32 + g)) (mm (32 + g)) g) ∧
        stored (m (32 + g + 1)) (mm (32 + g)) (mm (32 + g + 1)) g) ∧
      isaacFillMemory seed = mm 64

/-- R194: the block generator as the spec's loop: the context before each of the 256 indices. The read at bits 17:10
of `y` is made after the write of `y`. -/
def Obligations.IsaacGeneratorFollowsTheLoop : Prop :=
  ∀ c : IsaacCtx, ∃ C : Nat → IsaacCtx,
    C 0 = { c with CC := c.CC + 1, BB := c.BB + (c.CC + 1) } ∧
    (∀ n, n < 256 →
      let i : Byte := BitVec.ofNat 8 n
      let x := rd (C n).MM i
      let s := if n % 4 = 0 then (C n).AA ^^^ ((C n).AA <<< 13)
        else if n % 4 = 1 then (C n).AA ^^^ ((C n).AA >>> 6)
        else if n % 4 = 2 then (C n).AA ^^^ ((C n).AA <<< 2)
        else (C n).AA ^^^ ((C n).AA >>> 16)
      let aa := rd (C n).MM (BitVec.ofNat 8 ((n + 128) % 256)) + s
      let y := rd (C n).MM (x.extractLsb' 2 8) + aa + (C n).BB
      (C (n + 1)).AA = aa ∧ (C (n + 1)).MM = wr (C n).MM i y ∧
      (C (n + 1)).BB = rd (C (n + 1)).MM (y.extractLsb' 10 8) + x ∧
      (C (n + 1)).RSL = wr (C n).RSL i (C (n + 1)).BB ∧
      (C (n + 1)).CC = (C n).CC ∧ (C (n + 1)).CNT = (C n).CNT ∧ (C (n + 1)).OBUF = (C n).OBUF) ∧
    isaacGenerate c = C 256

/-- R192, R193, R197: `ISAAC_INIT`: the seed words, then zero words; both passes; one generation from zero scalars;
the countdown at 256 and no byte waiting; and `CC = 1`, the value one generation leaves. -/
def Obligations.IsaacInitSeedsTheGenerator : Prop :=
  ∀ (s : State) (seed : List Byte),
    (seed.length ≤ 1024 → seed.length % 4 = 0 →
      ∃ (c : IsaacCtx) (rsl : Vector Word 256),
        (∀ k : Byte, rd rsl k =
          if 4 * k.toNat < seed.length then
            le32 (seed.getD (4 * k.toNat) 0) (seed.getD (4 * k.toNat + 1) 0)
              (seed.getD (4 * k.toNat + 2) 0) (seed.getD (4 * k.toNat + 3) 0)
          else 0) ∧
        c = { isaacGenerate { MM := isaacFillMemory rsl, RSL := rsl, AA := 0, BB := 0, CC := 0, CNT := 0, OBUF := [] }
              with CNT := 256, OBUF := [] } ∧
        c.CC = 1 ∧
        exec (.isaacInit 0 0 seed) s = .next (s.answered (.isaac c) .ok [])) ∧
    (1024 < seed.length ∨ seed.length % 4 ≠ 0 →
      exec (.isaacInit 0 0 seed) s = .next (s.failed .invalidSeed))

/-- R192, R197: a short seed equals the same seed followed by zero bytes; so no seed equals an all-zero one. -/
def Obligations.IsaacShortSeedIsZeroFilled : Prop :=
  ∀ (s : State) (seed : List Byte) (n : Nat), seed.length % 4 = 0 → n % 4 = 0 → seed.length + n ≤ 1024 →
    exec (.isaacInit 0 0 (seed ++ List.replicate n 0)) s = exec (.isaacInit 0 0 seed) s

/-- R195: the draw: the word at `255 - CNT` after the countdown step, a generation first when none is left. The
premise rules out countdowns that no run holds (R29, `EveryStepKeepsTheInvariant`). -/
def Obligations.IsaacDrawTakesTheNextWord : Prop :=
  ∀ c : IsaacCtx, c.CNT.toNat ≤ 256 →
    (c.CNT = 0 → (isaacDraw c).2 = { isaacGenerate c with CNT := 255 } ∧
      (isaacDraw c).1 = rd (isaacGenerate c).RSL 0) ∧
    (c.CNT ≠ 0 → (isaacDraw c).2 = { c with CNT := BitVec.ofNat 9 (c.CNT.toNat - 1) } ∧
      (isaacDraw c).1 = rd c.RSL (BitVec.ofNat 8 (256 - c.CNT.toNat)))

/-- R196, R198: `ISAAC_NEXT`: output byte `k` is the byte the `k`-th delivery returns. A delivery takes the head of
the queue; an empty queue is filled from a draw, least significant byte first. -/
def Obligations.IsaacNextDeliversTheBytes : Prop :=
  ∀ (s : State) (c : IsaacCtx) (len : BitVec 16), s.ctx = .isaac c →
    (∃ out : List Byte, out.length = len.toNat ∧
      (∀ k, k < len.toNat → out.getD k 0 = (isaacByte ((fun c => (isaacByte c).2)^[k] c)).1) ∧
      exec (.isaacNext 0 len 0) s
        = .next (s.answered (.isaac ((fun c => (isaacByte c).2)^[len.toNat] c)) .ok out)) ∧
    (∀ (b : Byte) (bs : List Byte), c.OBUF = b :: bs → isaacByte c = (b, { c with OBUF := bs })) ∧
    (c.OBUF = [] → isaacByte c =
      ((isaacDraw c).1.extractLsb' 0 8,
       { (isaacDraw c).2 with OBUF := [(isaacDraw c).1.extractLsb' 8 8, (isaacDraw c).1.extractLsb' 16 8,
          (isaacDraw c).1.extractLsb' 24 8] }))

/-- R199 (a): requests may be split anywhere. -/
def Obligations.IsaacRequestsMaySplitAnywhere : Prop :=
  ∀ (s : State) (c : IsaacCtx) (n1 n2 : BitVec 16), s.ctx = .isaac c → n1.toNat + n2.toNat < 65536 →
    ∃ (c1 c2 : Ctx) (o1 o2 : List Byte),
      exec (.isaacNext 0 n1 0) s = .next (s.answered c1 .ok o1) ∧
      exec (.isaacNext 0 n2 0) (s.answered c1 .ok o1) = .next ((s.answered c1 .ok o1).answered c2 .ok o2) ∧
      exec (.isaacNext 0 (n1 + n2) 0) s = .next (s.answered c2 .ok (o1 ++ o2))

/-- R199 (b): from a fresh context (a full countdown and no byte waiting), byte `t` of the sequence is byte `t mod 4`
of word `(t div 4) mod 256` of generation `t div 1024`, generation 0 being the one the context was made with. -/
def Obligations.IsaacByteNumberSelectsItsWord : Prop :=
  ∀ (c : IsaacCtx) (t : Nat), c.CNT = 256 → c.OBUF = [] →
    (isaacByte ((fun c => (isaacByte c).2)^[t] c)).1
      = byteOf (rd (isaacGenerate^[t / 1024] c).RSL (BitVec.ofNat 8 (t / 4))) (t % 4)

/-! ### The text form -/

/-- R103: each pseudo-command assembles to its one real command. -/
def Obligations.PseudoCommandsAreAliases : Prop :=
  ∀ (b : List Byte) (n : BitVec 16),
    assemble (.arc4Enc b) = .arc4Xfrm 0 0 b ∧ assemble (.arc4Dec b) = .arc4Xfrm 0 0 b ∧
    assemble (.salsaEnc b) = .salsaXfrm 0 0 b ∧ assemble (.salsaDec b) = .salsaXfrm 0 0 b ∧
    assemble (.salsaKs n) = .salsaXfrm 0 0 (List.replicate n.toNat 0) ∧
    assemble (.isaacInit none) = .isaacInit 0 0 [] ∧ assemble (.arc4Init b none) = .arc4Init 0 0 b
end

