-- ==== Sys2Proof/Laws/Ops.lean ====
section
/-! SUPPORT. The arrays of 256 entries, and the check chain. -/

namespace Sys2Proof.Machine

variable {α : Type}

@[simp] theorem rd_wr_same (m : Vector α 256) (i : Byte) (x : α) : rd (wr m i x) i = x := by
  simp [rd, wr]

theorem rd_wr_ne (m : Vector α 256) (i k : Byte) (x : α) (h : k ≠ i) : rd (wr m i x) k = rd m k := by
  have : i.toNat ≠ k.toNat := fun e => h (BitVec.eq_of_toNat_eq e.symm)
  simp [rd, wr, this]

theorem rd_wr (m : Vector α 256) (i k : Byte) (x : α) : rd (wr m i x) k = if k = i then x else rd m k := by
  split
  · next h => subst h; simp
  · next h => exact rd_wr_ne m i k x h

/-- Two arrays with the same entries are equal. -/
theorem rd_ext (a b : Vector α 256) (h : ∀ i, rd a i = rd b i) : a = b := by
  apply Vector.ext
  intro i hi
  have hm : (BitVec.ofNat 8 i).toNat = i := by simpa using Nat.mod_eq_of_lt hi
  simpa only [rd, hm] using h (BitVec.ofNat 8 i)

@[simp] theorem rd_fill256 (f : Byte → α) (i : Byte) : rd (fill256 f) i = f i := by
  simp [rd, fill256]

theorem wr_self (m : Vector α 256) (i : Byte) : wr m i (rd m i) = m := by
  apply rd_ext
  intro k
  rw [rd_wr]
  split
  · next h => rw [h]
  · rfl

/-! A fold over the 256 indices is the recursion on the index. -/

/-- The first `n` rounds of a loop over the indices. -/
def loopTo {σ : Type} (f : σ → Byte → σ) (s : σ) : Nat → σ
  | 0 => s
  | n + 1 => f (loopTo f s n) (BitVec.ofNat 8 n)

theorem foldl_range_eq_loopTo {σ : Type} (f : σ → Byte → σ) (s : σ) (n : Nat) :
    ((List.range n).map (BitVec.ofNat 8)).foldl f s = loopTo f s n := by
  induction n with
  | zero => rfl
  | succ n ih => simp [List.range_succ, ih, loopTo]

theorem foldl_indices256 {σ : Type} (f : σ → Byte → σ) (s : σ) : indices256.foldl f s = loopTo f s 256 :=
  foldl_range_eq_loopTo f s 256

/-- A property that every round keeps holds after the loop. -/
theorem foldl_keeps {σ ι : Type} (P : σ → Prop) (f : σ → ι → σ) (h : ∀ s i, P s → P (f s i)) (l : List ι) (s : σ)
    (hs : P s) : P (l.foldl f s) := by
  induction l generalizing s with
  | nil => exact hs
  | cons i l ih => exact ih _ (h s i hs)

/-! The checks of R220. -/

@[simp] theorem guarded_nil (c : Ctx) (k : Ctx × Response) : guarded [] c k = k := rfl
@[simp] theorem guarded_some (st : Status) (l : List (Option Status)) (c : Ctx) (k : Ctx × Response) :
    guarded (some st :: l) c k = raise st c := rfl
@[simp] theorem guarded_none (l : List (Option Status)) (c : Ctx) (k : Ctx × Response) :
    guarded (none :: l) c k = guarded l c k := rfl

@[simp] theorem argZero_zero : argZero 0 = none := rfl
@[simp] theorem operandZero_zero : operandZero 0 = none := rfl
@[simp] theorem lenZero_zero : lenZero 0 = none := rfl
theorem argZero_ne {a : Byte} (h : a ≠ 0) : argZero a = some .errFormat := if_neg h
theorem operandZero_ne {w : Word} (h : w ≠ 0) : operandZero w = some .errFormat := if_neg h
theorem lenZero_ne {n : BitVec 16} (h : n ≠ 0) : lenZero n = some .errFormat := if_neg h

/-- A check chain either answers with the status of one of its checks or goes on. -/
theorem guarded_cases (l : List (Option Status)) (c : Ctx) (k : Ctx × Response) :
    (∃ st, some st ∈ l ∧ guarded l c k = raise st c) ∨ ((∀ o ∈ l, o = none) ∧ guarded l c k = k) := by
  induction l with
  | nil => exact .inr ⟨by simp, rfl⟩
  | cons o l ih =>
    cases o with
    | some st => exact .inl ⟨st, by simp, rfl⟩
    | none =>
      rcases ih with ⟨st, hm, h⟩ | ⟨hn, h⟩
      · exact .inl ⟨st, by simp [hm], h⟩
      · exact .inr ⟨by simpa using hn, h⟩

end Sys2Proof.Machine
end

