-- ==== Sys2Proof/Laws/Arc4.lean ====
section
/-! SUPPORT. What the ARC4 loops do: the context after a loop is the iterated generator step, the loops compose, and
the output has one byte per step. -/

namespace Sys2Proof.Machine

/-- The context after one generator step. -/
abbrev prgaNext (c : Arc4Ctx) : Arc4Ctx := (prga c).2

theorem arc4Skip_eq_iterate (n : Nat) (c : Arc4Ctx) : arc4Skip n c = prgaNext^[n] c := by
  induction n generalizing c with
  | zero => rfl
  | succ n ih => simpa [arc4Skip] using ih (prga c).2

theorem arc4Keystream_ctx (n : Nat) (c : Arc4Ctx) : (arc4Keystream n c).2 = prgaNext^[n] c := by
  induction n generalizing c with
  | zero => rfl
  | succ n ih => simpa [arc4Keystream] using ih (prga c).2

@[simp] theorem arc4Keystream_length (n : Nat) (c : Arc4Ctx) : (arc4Keystream n c).1.length = n := by
  induction n generalizing c with
  | zero => rfl
  | succ n ih => simp [arc4Keystream, ih]

theorem arc4Keystream_getD (n : Nat) (c : Arc4Ctx) (k : Nat) (h : k < n) :
    (arc4Keystream n c).1.getD k 0 = (prga (prgaNext^[k] c)).1 := by
  induction n generalizing c k with
  | zero => omega
  | succ n ih =>
    cases k with
    | zero => rfl
    | succ k => simpa [arc4Keystream] using ih (prga c).2 k (by omega)

/-- The transform is the input with the keystream of its length (R124, R125). -/
theorem arc4Transform_eq (d : List Byte) (c : Arc4Ctx) :
    arc4Transform d c = (xorBytes d (arc4Keystream d.length c).1, (arc4Keystream d.length c).2) := by
  induction d generalizing c with
  | nil => rfl
  | cons b d ih => simp [arc4Transform, arc4Keystream, ih, xorBytes]

theorem arc4Transform_append (d1 d2 : List Byte) (c : Arc4Ctx) :
    arc4Transform (d1 ++ d2) c
      = ((arc4Transform d1 c).1 ++ (arc4Transform d2 (arc4Transform d1 c).2).1,
         (arc4Transform d2 (arc4Transform d1 c).2).2) := by
  induction d1 generalizing c with
  | nil => rfl
  | cons b d1 ih => simp [arc4Transform, ih]

/-- A property of the context that the generator step keeps holds after a transform and after a keystream. -/
theorem prgaNext_iterate_keeps (P : Arc4Ctx → Prop) (h : ∀ c, P c → P (prgaNext c)) (n : Nat) (c : Arc4Ctx)
    (hc : P c) : P (prgaNext^[n] c) := by
  induction n generalizing c with
  | zero => exact hc
  | succ n ih => exact ih _ (h c hc)

/-! The outcomes of the ARC4 commands, said once. -/

theorem onArc4_arc4 (a : Arc4Ctx) (k : Arc4Ctx → Ctx × Response) : onArc4 (.arc4 a) k = k a := rfl

theorem onArc4_other (c : Ctx) (k : Arc4Ctx → Ctx × Response) (h : c.alg ≠ .arc4) :
    onArc4 c k = raise .errPhase c := by
  cases c <;> first | rfl | exact absurd rfl h

end Sys2Proof.Machine
end

