-- ==== Sys2Proof/Laws/Operands.lean ====
section
/-! SUPPORT. What the operand forms of `Machine/Operands.lean` do: lengths, entries, and that bytes to words and words
to bytes undo each other (R8). -/

namespace Sys2Proof.Machine

theorem byteOf_toNat (w : Word) (k : Nat) : (byteOf w k).toNat = w.toNat / 2 ^ (8 * k) % 256 := by
  simp [byteOf, BitVec.extractLsb'_toNat, Nat.shiftRight_eq_div_pow]

theorem le32_toNat (b0 b1 b2 b3 : Byte) :
    (le32 b0 b1 b2 b3).toNat = b0.toNat + 256 * b1.toNat + 65536 * b2.toNat + 16777216 * b3.toNat := by
  have := b0.isLt; have := b1.isLt; have := b2.isLt; have := b3.isLt
  simp only [le32, BitVec.toNat_ofNat]
  omega

@[simp] theorem byteOf_le32_zero (b0 b1 b2 b3 : Byte) : byteOf (le32 b0 b1 b2 b3) 0 = b0 := by
  apply BitVec.eq_of_toNat_eq
  have := b0.isLt; have := b1.isLt; have := b2.isLt; have := b3.isLt
  rw [byteOf_toNat, le32_toNat]; omega

@[simp] theorem byteOf_le32_one (b0 b1 b2 b3 : Byte) : byteOf (le32 b0 b1 b2 b3) 1 = b1 := by
  apply BitVec.eq_of_toNat_eq
  have := b0.isLt; have := b1.isLt; have := b2.isLt; have := b3.isLt
  rw [byteOf_toNat, le32_toNat]; omega

@[simp] theorem byteOf_le32_two (b0 b1 b2 b3 : Byte) : byteOf (le32 b0 b1 b2 b3) 2 = b2 := by
  apply BitVec.eq_of_toNat_eq
  have := b0.isLt; have := b1.isLt; have := b2.isLt; have := b3.isLt
  rw [byteOf_toNat, le32_toNat]; omega

@[simp] theorem byteOf_le32_three (b0 b1 b2 b3 : Byte) : byteOf (le32 b0 b1 b2 b3) 3 = b3 := by
  apply BitVec.eq_of_toNat_eq
  have := b0.isLt; have := b1.isLt; have := b2.isLt; have := b3.isLt
  rw [byteOf_toNat, le32_toNat]; omega

@[simp] theorem le32_byteOf (w : Word) : le32 (byteOf w 0) (byteOf w 1) (byteOf w 2) (byteOf w 3) = w := by
  apply BitVec.eq_of_toNat_eq
  have := w.isLt
  simp only [le32_toNat, byteOf_toNat]; omega

theorem fields32_toNat (hi mid : Byte) (low : BitVec 16) :
    (fields32 hi mid low).toNat = 16777216 * hi.toNat + 65536 * mid.toNat + low.toNat := by
  have := hi.isLt; have := mid.isLt; have := low.isLt
  simp only [fields32, BitVec.toNat_ofNat]
  omega

@[simp] theorem fields32_high (hi mid : Byte) (low : BitVec 16) : (fields32 hi mid low).extractLsb' 24 8 = hi := by
  apply BitVec.eq_of_toNat_eq
  have := hi.isLt; have := mid.isLt; have := low.isLt
  simp only [BitVec.extractLsb'_toNat, fields32_toNat, Nat.shiftRight_eq_div_pow]; omega

@[simp] theorem fields32_mid (hi mid : Byte) (low : BitVec 16) : (fields32 hi mid low).extractLsb' 16 8 = mid := by
  apply BitVec.eq_of_toNat_eq
  have := hi.isLt; have := mid.isLt; have := low.isLt
  simp only [BitVec.extractLsb'_toNat, fields32_toNat, Nat.shiftRight_eq_div_pow]; omega

@[simp] theorem fields32_low (hi mid : Byte) (low : BitVec 16) : (fields32 hi mid low).extractLsb' 0 16 = low := by
  apply BitVec.eq_of_toNat_eq
  have := hi.isLt; have := mid.isLt; have := low.isLt
  simp only [BitVec.extractLsb'_toNat, fields32_toNat, Nat.shiftRight_eq_div_pow]; omega

/-- A word is its three fields. -/
theorem fields32_extract (w : Word) :
    fields32 (w.extractLsb' 24 8) (w.extractLsb' 16 8) (w.extractLsb' 0 16) = w := by
  apply BitVec.eq_of_toNat_eq
  have := w.isLt
  simp only [fields32_toNat, BitVec.extractLsb'_toNat, Nat.shiftRight_eq_div_pow]; omega

@[simp] theorem bytesLe32_length (w : Word) : (bytesLe32 w).length = 4 := rfl

@[simp] theorem bytesLe32_le32 (b0 b1 b2 b3 : Byte) : bytesLe32 (le32 b0 b1 b2 b3) = [b0, b1, b2, b3] := by
  simp [bytesLe32]

theorem bytesLe32_getD (w : Word) (k : Nat) (hk : k < 4) : (bytesLe32 w).getD k 0 = byteOf w k := by
  rcases (by omega : k = 0 ∨ k = 1 ∨ k = 2 ∨ k = 3) with rfl | rfl | rfl | rfl <;> rfl

@[simp] theorem serLe_length (ws : List Word) : (serLe ws).length = 4 * ws.length := by
  induction ws with
  | nil => rfl
  | cons w ws ih => simp [serLe, ih]; omega

theorem serLe_append (ws vs : List Word) : serLe (ws ++ vs) = serLe ws ++ serLe vs := by
  induction ws with
  | nil => rfl
  | cons w ws ih => simp [serLe, ih]

/-- Byte `4t + k` of a serialised list is byte `k` of word `t`. -/
theorem serLe_getD (ws : List Word) (t k : Nat) (hk : k < 4) :
    (serLe ws).getD (4 * t + k) 0 = byteOf (ws.getD t 0) k := by
  induction ws generalizing t with
  | nil =>
    have : byteOf (0 : Word) k = 0 := by
      apply BitVec.eq_of_getLsbD_eq
      intro i hi
      simp [byteOf]
    simpa [serLe] using this.symm
  | cons w ws ih =>
    cases t with
    | zero =>
      have := bytesLe32_getD w k hk
      simp only [serLe, Nat.mul_zero, Nat.zero_add, List.getD_cons_zero]
      rw [List.getD_append _ _ _ _ (by simpa using hk)]
      exact this
    | succ t =>
      simp only [serLe, List.getD_cons_succ]
      rw [List.getD_append_right _ _ _ _ (by simp; omega)]
      have : 4 * (t + 1) + k - (bytesLe32 w).length = 4 * t + k := by simp; omega
      rw [this, ih]

@[simp] theorem wordsLe_serLe (ws : List Word) : wordsLe (serLe ws) = ws := by
  induction ws with
  | nil => rfl
  | cons w ws ih => simp [serLe, bytesLe32, wordsLe, ih]

theorem wordsLe_length (bs : List Byte) : (wordsLe bs).length = bs.length / 4 := by
  induction bs using wordsLe.induct with
  | case1 b0 b1 b2 b3 rest ih => simp [wordsLe, ih]; omega
  | case2 bs h =>
    rcases bs with _ | ⟨a, _ | ⟨b, _ | ⟨c, _ | ⟨d, rest⟩⟩⟩⟩
    · rfl
    · simp [wordsLe]
    · simp [wordsLe]
    · simp [wordsLe]
    · exact absurd rfl (h a b c d rest)

theorem serLe_wordsLe (bs : List Byte) (h : bs.length % 4 = 0) : serLe (wordsLe bs) = bs := by
  induction bs using wordsLe.induct with
  | case1 b0 b1 b2 b3 rest ih =>
    have hr : rest.length % 4 = 0 := by simp at h; omega
    simp [wordsLe, serLe, ih hr]
  | case2 bs hb =>
    rcases bs with _ | ⟨a, _ | ⟨b, _ | ⟨c, _ | ⟨d, rest⟩⟩⟩⟩
    · rfl
    · simp at h
    · simp at h
    · simp at h
    · exact absurd rfl (hb a b c d rest)

/-- Word `t` of a byte string, in its whole words. -/
theorem wordsLe_getD (bs : List Byte) (t : Nat) (h : 4 * t + 4 ≤ bs.length) :
    (wordsLe bs).getD t 0
      = le32 (bs.getD (4 * t) 0) (bs.getD (4 * t + 1) 0) (bs.getD (4 * t + 2) 0) (bs.getD (4 * t + 3) 0) := by
  induction bs using wordsLe.induct generalizing t with
  | case1 b0 b1 b2 b3 rest ih =>
    cases t with
    | zero => simp [wordsLe]
    | succ t =>
      have := ih t (by simp at h; omega)
      simp only [wordsLe, List.getD_cons_succ, this, Nat.mul_add, Nat.mul_one, Nat.add_assoc]
  | case2 bs hb =>
    rcases bs with _ | ⟨a, _ | ⟨b, _ | ⟨c, _ | ⟨d, rest⟩⟩⟩⟩
    · simp at h
    · simp at h
    · simp at h
    · simp at h
    · exact absurd rfl (hb a b c d rest)

theorem wordsLe_append (as bs : List Byte) (h : as.length % 4 = 0) :
    wordsLe (as ++ bs) = wordsLe as ++ wordsLe bs := by
  induction as using wordsLe.induct with
  | case1 b0 b1 b2 b3 rest ih =>
    have hr : rest.length % 4 = 0 := by simp at h; omega
    simp [wordsLe, ih hr]
  | case2 as hb =>
    rcases as with _ | ⟨a, _ | ⟨b, _ | ⟨c, _ | ⟨d, rest⟩⟩⟩⟩
    · rfl
    · simp at h
    · simp at h
    · simp at h
    · exact absurd rfl (hb a b c d rest)

theorem packLe_length (bs : List Byte) : (packLe bs).length = (bs.length + 3) / 4 := by
  induction bs using packLe.induct with
  | case1 => rfl
  | case2 b0 => simp [packLe]
  | case3 b0 b1 => simp [packLe]
  | case4 b0 b1 b2 => simp [packLe]
  | case5 b0 b1 b2 b3 rest ih => simp [packLe, ih]; omega

/-- The padding of the last word is ignored (R93). -/
theorem take_serLe_packLe (bs : List Byte) : (serLe (packLe bs)).take bs.length = bs := by
  induction bs using packLe.induct with
  | case1 => rfl
  | case2 b0 => simp [packLe, serLe]
  | case3 b0 b1 => simp [packLe, serLe]
  | case4 b0 b1 b2 => simp [packLe, serLe]
  | case5 b0 b1 b2 b3 rest ih => simp [packLe, serLe, ih]

@[simp] theorem xorBytes_length (as bs : List Byte) : (xorBytes as bs).length = min as.length bs.length := by
  simp [xorBytes]

theorem xorBytes_getD (as bs : List Byte) (k : Nat) (ha : k < as.length) (hb : k < bs.length) :
    (xorBytes as bs).getD k 0 = as.getD k 0 ^^^ bs.getD k 0 := by
  simp [xorBytes, List.getD_eq_getElem?_getD, ha, hb]

end Sys2Proof.Machine
end

