-- ==== Sys2Proof/Laws/Decode.lean ====
section
/-! SUPPORT. The opcode map, the header fields of an encoded command, and the port's bytes. -/

namespace Sys2Proof

open Machine

@[simp] theorem ofCode_code (o : Op) : Op.ofCode o.code = some o := by cases o <;> rfl

theorem code_of_ofCode {b : Byte} {o : Op} (h : Op.ofCode b = some o) : o.code = b := by
  simpa using List.find?_some h

@[simp] theorem opcodeField_headerWord (op arg : Byte) (len : BitVec 16) :
    opcodeField (headerWord op arg len) = op := by simp [opcodeField, headerWord]

@[simp] theorem argField_headerWord (op arg : Byte) (len : BitVec 16) :
    argField (headerWord op arg len) = arg := by simp [argField, headerWord]

@[simp] theorem lenField_headerWord (op arg : Byte) (len : BitVec 16) :
    lenField (headerWord op arg len) = len := by simp [lenField, headerWord]

/-- A header word is its three fields. -/
theorem headerWord_fields (w : Word) : headerWord (opcodeField w) (argField w) (lenField w) = w :=
  fields32_extract w

@[simp] theorem opcodeField_w0 (i : Instr) : opcodeField i.w0 = i.op.code := by simp [Instr.w0]
@[simp] theorem argField_w0 (i : Instr) : argField i.w0 = i.arg := by simp [Instr.w0]
@[simp] theorem lenField_w0 (i : Instr) : lenField i.w0 = i.len := by simp [Instr.w0]

/-- `LEN` of a command that the port can carry is the length of its payload in formats K and X (R91). -/
theorem payloadLength_w0 (i : Instr) (h : i.WellFormed) : payloadLength i.w0 = i.payload.length := by
  unfold payloadLength
  rw [opcodeField_w0, ofCode_code, lenField_w0]
  cases i <;>
    simp_all [Instr.op, Op.format, Format.hasPayload, Instr.len, Instr.payload, BitVec.toNat_ofNat,
      Instr.WellFormed, Nat.mod_eq_of_lt]

/-- A command is the record of its fields (R93). -/
theorem ofFields_eq (i : Instr) : Instr.ofFields i.op i.arg i.len i.operand i.payload = i := by
  cases i <;> rfl

/-- The decoder on two header words written byte by byte. -/
theorem decode_header (w0 w1 : Word) (rest : List Byte) :
    decode (bytesLe32 w0 ++ bytesLe32 w1 ++ rest) = decodeHeader w0 w1 rest := by
  simp [bytesLe32, decode]

/-- The decoder reads bytes only through a header of two words. -/
theorem decode_cases (bs : List Byte) :
    (decode bs = .incomplete ∧ bs.length < 8) ∨
    ∃ w0 w1 rest, bs = bytesLe32 w0 ++ bytesLe32 w1 ++ rest ∧ decode bs = decodeHeader w0 w1 rest := by
  rcases bs with _ | ⟨a0, _ | ⟨a1, _ | ⟨a2, _ | ⟨a3, _ | ⟨b0, _ | ⟨b1, _ | ⟨b2, _ | ⟨b3, rest⟩⟩⟩⟩⟩⟩⟩⟩
  case cons.cons.cons.cons.cons.cons.cons.cons =>
    exact .inr ⟨le32 a0 a1 a2 a3, le32 b0 b1 b2 b3, rest, by simp, rfl⟩
  all_goals exact .inl ⟨rfl, by simp⟩

end Sys2Proof
end

