-- ==== Sys2Proof/Laws/Isaac.lean ====
section
/-! SUPPORT. What the ISAAC operations do: a generation leaves the countdown and the queue alone and does not read
them, the delivery loop composes, and its output has one byte per step; and what a store to a
group of eight entries writes. -/

namespace Sys2Proof.Machine

theorem isaacGenFold_frame (l : List Byte) (d : IsaacCtx) :
    (l.foldl isaacGenStep d).CNT = d.CNT ∧ (l.foldl isaacGenStep d).OBUF = d.OBUF ∧
      (l.foldl isaacGenStep d).CC = d.CC := by
  induction l generalizing d with
  | nil => exact ⟨rfl, rfl, rfl⟩
  | cons i l ih => exact ih (isaacGenStep d i)

@[simp] theorem isaacGenerate_cnt (c : IsaacCtx) : (isaacGenerate c).CNT = c.CNT := (isaacGenFold_frame _ _).1

@[simp] theorem isaacGenerate_obuf (c : IsaacCtx) : (isaacGenerate c).OBUF = c.OBUF := (isaacGenFold_frame _ _).2.1

@[simp] theorem isaacGenerate_cc (c : IsaacCtx) : (isaacGenerate c).CC = c.CC + 1 := (isaacGenFold_frame _ _).2.2

/-- A generation does not read the countdown or the queue. -/
theorem isaacGenerate_with (c : IsaacCtx) (n : BitVec 9) (q : List Byte) :
    isaacGenerate { c with CNT := n, OBUF := q } = { isaacGenerate c with CNT := n, OBUF := q } := by
  have h : ∀ (l : List Byte) (d : IsaacCtx),
      l.foldl isaacGenStep { d with CNT := n, OBUF := q } = { l.foldl isaacGenStep d with CNT := n, OBUF := q } := by
    intro l
    induction l with
    | nil => intro d; rfl
    | cons i l ih => intro d; exact ih (isaacGenStep d i)
  exact h indices256 { c with CC := c.CC + 1, BB := c.BB + (c.CC + 1) }

/-! The groups of eight entries of the memory fill. -/

/-- An index is the one at offset `j` of group `g` exactly when its number is `8 g + j`. -/
theorem eq_group_index (k : Byte) (g j : Nat) (hg : g < 32) (hj : j < 8) :
    k = BitVec.ofNat 8 (8 * g) + BitVec.ofNat 8 j ↔ k.toNat = 8 * g + j := by
  rw [← BitVec.toNat_inj, BitVec.toNat_add, BitVec.toNat_ofNat, BitVec.toNat_ofNat]
  omega

/-- Storing the eight variables at group `g` writes that group and nothing else. -/
theorem rd_mixStore (m : Mixers) (mm : Vector Word 256) (g : Nat) (hg : g < 32) (k : Byte) :
    rd (mixStore m mm (BitVec.ofNat 8 (8 * g))) k =
      if k.toNat / 8 = g then [m.a, m.b, m.c, m.d, m.e, m.f, m.g, m.h].getD (k.toNat % 8) 0 else rd mm k := by
  have e0 : k = BitVec.ofNat 8 (8 * g) ↔ k.toNat = 8 * g + 0 := by
    simpa using eq_group_index k g 0 hg (by omega)
  have e1 : k = BitVec.ofNat 8 (8 * g) + 1 ↔ _ := eq_group_index k g 1 hg (by omega)
  have e2 : k = BitVec.ofNat 8 (8 * g) + 2 ↔ _ := eq_group_index k g 2 hg (by omega)
  have e3 : k = BitVec.ofNat 8 (8 * g) + 3 ↔ _ := eq_group_index k g 3 hg (by omega)
  have e4 : k = BitVec.ofNat 8 (8 * g) + 4 ↔ _ := eq_group_index k g 4 hg (by omega)
  have e5 : k = BitVec.ofNat 8 (8 * g) + 5 ↔ _ := eq_group_index k g 5 hg (by omega)
  have e6 : k = BitVec.ofNat 8 (8 * g) + 6 ↔ _ := eq_group_index k g 6 hg (by omega)
  have e7 : k = BitVec.ofNat 8 (8 * g) + 7 ↔ _ := eq_group_index k g 7 hg (by omega)
  simp only [mixStore, rd_wr, e0, e1, e2, e3, e4, e5, e6, e7]
  by_cases h : k.toNat / 8 = g
  · rw [if_pos h]
    generalize hj : k.toNat % 8 = j
    have hk : k.toNat = 8 * g + j := by omega
    have : j < 8 := by omega
    rw [hk]
    interval_cases j <;> simp
  · rw [if_neg h]
    repeat rw [if_neg (by omega)]

/-- The context after one byte was delivered. -/
abbrev isaacNextCtx (c : IsaacCtx) : IsaacCtx := (isaacByte c).2

theorem isaacBytes_ctx (n : Nat) (c : IsaacCtx) : (isaacBytes n c).2 = isaacNextCtx^[n] c := by
  induction n generalizing c with
  | zero => rfl
  | succ n ih => simpa [isaacBytes] using ih (isaacByte c).2

@[simp] theorem isaacBytes_length (n : Nat) (c : IsaacCtx) : (isaacBytes n c).1.length = n := by
  induction n generalizing c with
  | zero => rfl
  | succ n ih => simp [isaacBytes, ih]

theorem isaacBytes_getD (n : Nat) (c : IsaacCtx) (k : Nat) (h : k < n) :
    (isaacBytes n c).1.getD k 0 = (isaacByte (isaacNextCtx^[k] c)).1 := by
  induction n generalizing c k with
  | zero => omega
  | succ n ih =>
    cases k with
    | zero => rfl
    | succ k => simpa [isaacBytes] using ih (isaacByte c).2 k (by omega)

theorem isaacBytes_add (m n : Nat) (c : IsaacCtx) :
    isaacBytes (m + n) c
      = ((isaacBytes m c).1 ++ (isaacBytes n (isaacBytes m c).2).1, (isaacBytes n (isaacBytes m c).2).2) := by
  induction m generalizing c with
  | zero => simp [isaacBytes]
  | succ m ih => rw [show m + 1 + n = (m + n) + 1 by omega]; simp [isaacBytes, ih]

/-- A property of the context that the delivery of a byte keeps holds after any number of them. -/
theorem isaacNextCtx_iterate_keeps (P : IsaacCtx → Prop) (h : ∀ c, P c → P (isaacNextCtx c)) (n : Nat) (c : IsaacCtx)
    (hc : P c) : P (isaacNextCtx^[n] c) := by
  induction n generalizing c with
  | zero => exact hc
  | succ n ih => exact ih _ (h c hc)

theorem onIsaac_isaac (a : IsaacCtx) (k : IsaacCtx → Ctx × Response) : onIsaac (.isaac a) k = k a := rfl

theorem onIsaac_other (c : Ctx) (k : IsaacCtx → Ctx × Response) (h : c.alg ≠ .isaac) :
    onIsaac c k = raise .errPhase c := by
  cases c <;> first | rfl | exact absurd rfl h

end Sys2Proof.Machine
end

