-- ==== Sys2Proof/Laws/PerInstr.lean ====
section
/-! SUPPORT. A statement for all commands, made per command: a command that the port can carry is the record of its
five fields (R93), its header holds them where R91 says, and the header announces as many payload bytes as travel
(R101). -/

namespace Sys2Proof.Laws.RecordFields

open Sys2Proof

/-- The record `(OPCODE, ARG, LEN, OPERAND, PAYLOAD)` of a command is on the port as the rules lay it out, and the
command is read back from the record. -/
def Statement (i : Instr) : Prop :=
  i.WellFormed →
    opcodeField i.w0 = i.op.code ∧ argField i.w0 = i.arg ∧ lenField i.w0 = i.len ∧
    payloadLength i.w0 = i.payload.length ∧ (encode i).length = 8 + i.payload.length ∧
    Instr.ofFields i.op i.arg i.len i.operand i.payload = i

/-- The proof is the same for every command once its record is read back. -/
theorem of_record (i : Instr) (h : Instr.ofFields i.op i.arg i.len i.operand i.payload = i) : Statement i := fun hw =>
  ⟨opcodeField_w0 i, argField_w0 i, lenField_w0 i, payloadLength_w0 i hw, by simp [encode]; omega, h⟩

theorem status (arg : Byte) (len : BitVec 16) (operand : Word) : Statement (.status arg len operand) :=
  of_record _ rfl

theorem discard (arg : Byte) (len : BitVec 16) (operand : Word) : Statement (.discard arg len operand) :=
  of_record _ rfl

theorem arc4Init (arg : Byte) (skip : Word) (key : List Byte) : Statement (.arc4Init arg skip key) :=
  of_record _ rfl

theorem arc4Xfrm (arg : Byte) (operand : Word) (data : List Byte) : Statement (.arc4Xfrm arg operand data) :=
  of_record _ rfl

theorem arc4Ks (arg : Byte) (len : BitVec 16) (operand : Word) : Statement (.arc4Ks arg len operand) :=
  of_record _ rfl

theorem salsaInit (rounds : Byte) (operand : Word) (keyNonce : List Byte) :
    Statement (.salsaInit rounds operand keyNonce) := of_record _ rfl

theorem salsaXfrm (arg : Byte) (operand : Word) (data : List Byte) : Statement (.salsaXfrm arg operand data) :=
  of_record _ rfl

theorem xxteaInit (arg : Byte) (operand : Word) (key : List Byte) : Statement (.xxteaInit arg operand key) :=
  of_record _ rfl

theorem xxteaEnc (arg : Byte) (operand : Word) (data : List Byte) : Statement (.xxteaEnc arg operand data) :=
  of_record _ rfl

theorem xxteaDec (arg : Byte) (operand : Word) (data : List Byte) : Statement (.xxteaDec arg operand data) :=
  of_record _ rfl

theorem isaacInit (arg : Byte) (operand : Word) (seed : List Byte) : Statement (.isaacInit arg operand seed) :=
  of_record _ rfl

theorem isaacNext (arg : Byte) (len : BitVec 16) (operand : Word) : Statement (.isaacNext arg len operand) :=
  of_record _ rfl

end Sys2Proof.Laws.RecordFields
end

