-- ==== Sys2Proof/Laws/Salsa20.lean ====
section
/-! SUPPORT. What the Salsa20 operations do: the lengths, the context after a transform, and how transforms compose at
block boundaries. -/

namespace Sys2Proof.Machine

@[simp] theorem salsaBlock_length (c : SalsaCtx) : (salsaBlock c).length = 64 := by simp [salsaBlock]

theorem doubleRounds_eq_iterate (n : Nat) (x : Matrix) : doubleRounds n x = doubleRound^[n] x := by
  induction n generalizing x with
  | zero => rfl
  | succ n ih => simpa [doubleRounds] using ih (doubleRound x)

@[simp] theorem salsaCount_rounds (c : SalsaCtx) : (salsaCount c).ROUNDS = c.ROUNDS := rfl

theorem salsaBlocks_ctx (n : Nat) (d : List Byte) (c : SalsaCtx) : (salsaBlocks n d c).2 = salsaCount^[n] c := by
  induction n generalizing d c with
  | zero => rfl
  | succ n ih => simpa [salsaBlocks] using ih (d.drop 64) (salsaCount c)

theorem salsaBlocks_length (n : Nat) (d : List Byte) (c : SalsaCtx) :
    (salsaBlocks n d c).1.length = min (64 * n) d.length := by
  induction n generalizing d c with
  | zero => simp [salsaBlocks]
  | succ n ih => simp [salsaBlocks, ih, Config.salsaBlock]; omega

theorem salsaTransform_ctx (d : List Byte) (c : SalsaCtx) :
    (salsaTransform d c).2 = salsaCount^[(d.length + 63) / 64] c := salsaBlocks_ctx _ _ _

@[simp] theorem salsaTransform_length (d : List Byte) (c : SalsaCtx) : (salsaTransform d c).1.length = d.length := by
  simp only [salsaTransform, salsaBlocks_length, Config.salsaBlock]
  omega

/-- An input that starts with whole blocks: those blocks first, then the rest from the stepped counter (R150). -/
theorem salsaBlocks_append (m n : Nat) (d1 d2 : List Byte) (c : SalsaCtx) (h : d1.length = 64 * m) :
    salsaBlocks (m + n) (d1 ++ d2) c
      = ((salsaBlocks m d1 c).1 ++ (salsaBlocks n d2 (salsaBlocks m d1 c).2).1,
         (salsaBlocks n d2 (salsaBlocks m d1 c).2).2) := by
  induction m generalizing d1 c with
  | zero =>
    have : d1 = [] := List.length_eq_zero_iff.mp (by omega)
    simp [this, salsaBlocks]
  | succ m ih =>
    have h1 : (d1.drop 64).length = 64 * m := by simp; omega
    have h2 : 64 ≤ d1.length := by omega
    have := ih (d1.drop 64) (salsaCount c) h1
    rw [show m + 1 + n = (m + n) + 1 by omega]
    simp [salsaBlocks, Config.salsaBlock, List.take_append_of_le_length h2, List.drop_append_of_le_length h2, this]

/-- A property of the context that the counter step keeps holds after a transform. -/
theorem salsaCount_iterate_keeps (P : SalsaCtx → Prop) (h : ∀ c, P c → P (salsaCount c)) (n : Nat) (c : SalsaCtx)
    (hc : P c) : P (salsaCount^[n] c) := by
  induction n generalizing c with
  | zero => exact hc
  | succ n ih => exact ih _ (h c hc)

theorem onSalsa_salsa20 (a : SalsaCtx) (k : SalsaCtx → Ctx × Response) : onSalsa (.salsa20 a) k = k a := rfl

theorem onSalsa_other (c : Ctx) (k : SalsaCtx → Ctx × Response) (h : c.alg ≠ .salsa20) :
    onSalsa c k = raise .errPhase c := by
  cases c <;> first | rfl | exact absurd rfl h

end Sys2Proof.Machine
end

