-- ==== Sys2Proof/Laws/State.lean ====
section
/-! SUPPORT. One lemma per field of `State` for each operation that writes a state, so that no later proof unfolds a
record update. -/

namespace Sys2Proof.Machine

@[simp] theorem reset_ctx : State.reset.ctx = .none := rfl
@[simp] theorem reset_port : State.reset.port = [] := rfl
@[simp] theorem reset_sent : State.reset.sent = [] := rfl

@[simp] theorem deliver_ctx (r : Ctx × Response) (s : State) : (deliver r s).ctx = r.1 := rfl
@[simp] theorem deliver_port (r : Ctx × Response) (s : State) : (deliver r s).port = s.port := rfl
@[simp] theorem deliver_sent (r : Ctx × Response) (s : State) : (deliver r s).sent = s.sent ++ [r.2] := rfl

@[simp] theorem hostReset_ctx (s : State) : (hostReset s).ctx = .none := rfl
@[simp] theorem hostReset_port (s : State) : (hostReset s).port = s.port := rfl
@[simp] theorem hostReset_sent (s : State) : (hostReset s).sent = s.sent := rfl

@[simp] theorem withFetchWord_ctx (s : State) (n w : Nat) : (s.withFetchWord n w).ctx = s.ctx := rfl
@[simp] theorem withFetchWord_sent (s : State) (n w : Nat) : (s.withFetchWord n w).sent = s.sent := rfl
@[simp] theorem withFetchWord_port (s : State) (n w : Nat) :
    (s.withFetchWord n w).port = sendBytes (tableBytes n w) ++ s.port := rfl

@[simp] theorem raise_ctx (st : Status) (c : Ctx) : (raise st c).1 = c := rfl
@[simp] theorem raise_response (st : Status) (c : Ctx) : (raise st c).2 = { status := st, payload := [] } := rfl
@[simp] theorem complete_ctx (c : Ctx) (p : List Byte) : (complete c p).1 = c := rfl
@[simp] theorem complete_response (c : Ctx) (p : List Byte) :
    (complete c p).2 = { status := .ok, payload := p } := rfl

end Sys2Proof.Machine
end

