-- ==== Sys2Proof/Laws/Step.lean ====
section
/-! SUPPORT. What a step can do, said once: the port's two views, what `fetch` finds, the one shape of every command's
outcome, and the cases of a step. -/

namespace Sys2Proof.Machine

@[simp] theorem portBytes_sendBytes (bs : List Byte) (more : List PortEvent) :
    portBytes (sendBytes bs ++ more) = bs ++ portBytes more := by
  induction bs with
  | nil => rfl
  | cons b bs ih => simpa [sendBytes, portBytes] using ih

@[simp] theorem fromReset_sendBytes (bs : List Byte) (more : List PortEvent) :
    fromReset (sendBytes bs ++ more) = fromReset more := by
  induction bs with
  | nil => rfl
  | cons b bs ih => simpa [sendBytes, fromReset] using ih

/-- The port is its bytes before the first reset, then what stands from the reset on. -/
theorem sendBytes_portBytes (port : List PortEvent) : sendBytes (portBytes port) ++ fromReset port = port := by
  induction port with
  | nil => rfl
  | cons e port ih =>
    cases e with
    | byte b => simpa [sendBytes, portBytes, fromReset] using ih
    | reset => rfl

theorem sendBytes_append (as bs : List Byte) : sendBytes (as ++ bs) = sendBytes as ++ sendBytes bs := by
  simp [sendBytes]

/-- Taking the bytes `bs` off a port that starts with them leaves the rest of the port. -/
theorem port_after (bs : List Byte) (more : List PortEvent) :
    sendBytes (portBytes more) ++ fromReset (sendBytes bs ++ more) = more := by
  rw [fromReset_sendBytes, sendBytes_portBytes]

/-- The spec's `step : State x Command -> State x Response` (R9), read off `exec`. -/
def blockStep (i : Instr) (c : Ctx) : Ctx × Response :=
  match exec i { ctx := c, port := [], sent := [] } with
  | .next t => (t.ctx, t.sent.headD { status := .ok, payload := [] })
  | .fault _ | .refused _ => (c, { status := .ok, payload := [] })

/-- Every command, from every state, answers with a next state that differs from the old one in the context and in one
more response; both depend on the old context alone (R9, R95). -/
theorem exec_eq_answer (i : Instr) (s : State) : exec i s = answer (blockStep i s.ctx) s := by
  cases i <;> rfl

/-- A command's next state, from any state it is run in. -/
theorem exec_port (i : Instr) (s t : State) (h : exec i s = .next t) : t.port = s.port := by
  rw [exec_eq_answer] at h
  cases h
  rfl

/-- The cases of a step. -/
theorem step_cases (s : State) :
    (∃ i rest, decode (portBytes s.port) = .command i rest ∧
      step s = exec i { s with port := sendBytes rest ++ fromReset s.port }) ∨
    (∃ op rest, decode (portBytes s.port) = .unlisted op rest ∧
      step s = .next (deliver (raise .errOpcode s.ctx) { s with port := sendBytes rest ++ fromReset s.port })) ∨
    (∃ e rest, decode (portBytes s.port) = .incomplete ∧ fromReset s.port = e :: rest ∧
      step s = .next (hostReset { s with port := rest })) ∨
    (s.port = [] ∧ step s = .next s) ∨
    (s.port ≠ [] ∧ decode (portBytes s.port) = .incomplete ∧ fromReset s.port = [] ∧
      step s = .refused .incompleteCommand) := by
  unfold step fetch
  cases hd : decode (portBytes s.port) with
  | command i rest => exact .inl ⟨i, rest, rfl, rfl⟩
  | unlisted op rest => exact .inr (.inl ⟨op, rest, rfl, rfl⟩)
  | incomplete =>
    cases hr : fromReset s.port with
    | cons e rest => exact .inr (.inr (.inl ⟨e, rest, rfl, rfl, rfl⟩))
    | nil =>
      by_cases hp : s.port = []
      · exact .inr (.inr (.inr (.inl ⟨hp, by simp [hp]⟩)))
      · exact .inr (.inr (.inr (.inr ⟨hp, rfl, rfl, by simp [hp]⟩)))

/-- No step faults. -/
theorem step_no_fault (s : State) (f : Fault) : step s ≠ .fault f := by cases f

end Sys2Proof.Machine
end

