-- ==== Sys2Proof/Laws/Xxtea.lean ====
section
/-! SUPPORT. What the XXTEA operations do: the length of the block is kept by every word, round and pass, and a word
that has just been changed one way is restored the other way. -/

namespace Sys2Proof.Machine

variable (K : Vector Word 4) (sum : Word)

@[simp] theorem encWord_length (v : List Word) (p : Nat) : (encWord K sum v p).length = v.length := by
  simp [encWord]

@[simp] theorem decWord_length (v : List Word) (p : Nat) : (decWord K sum v p).length = v.length := by
  simp [decWord]

@[simp] theorem encRound_length (v : List Word) : (encRound K sum v).length = v.length :=
  foldl_keeps (fun w => w.length = v.length) (encWord K sum) (fun w p h => by simp [h]) _ v rfl

@[simp] theorem decRound_length (v : List Word) : (decRound K sum v).length = v.length :=
  foldl_keeps (fun w => w.length = v.length) (decWord K sum) (fun w p h => by simp [h]) _ v rfl

@[simp] theorem encRounds_length (q : Nat) (v : List Word) : (encRounds K q sum v).length = v.length := by
  induction q generalizing sum v with
  | zero => rfl
  | succ q ih => simp [encRounds, ih]

@[simp] theorem decRounds_length (q : Nat) (v : List Word) : (decRounds K q sum v).length = v.length := by
  induction q generalizing sum v with
  | zero => rfl
  | succ q ih => simp [decRounds, ih]

@[simp] theorem xxteaEncrypt_length (v : List Word) : (xxteaEncrypt K v).length = v.length := by
  unfold xxteaEncrypt; split <;> simp

@[simp] theorem xxteaDecrypt_length (v : List Word) : (xxteaDecrypt K v).length = v.length := by
  unfold xxteaDecrypt; split <;> simp

/-- In a block of at least two words both neighbours of a word are other words, so the `MX` value at an index does
not depend on the word there. -/
theorem mxAt_set (v : List Word) (p : Nat) (x : Word) (hn : 2 ≤ v.length) (hp : p < v.length) :
    mxAt K sum (v.set p x) p = mxAt K sum v p := by
  have h1 : (p + 1) % v.length ≠ p := by
    rcases Nat.lt_or_ge (p + 1) v.length with h | h
    · rw [Nat.mod_eq_of_lt h]; omega
    · have : p + 1 = v.length := by omega
      rw [this, Nat.mod_self]; omega
  have h2 : (p + v.length - 1) % v.length ≠ p := by
    rcases Nat.eq_zero_or_pos p with h | h
    · subst h; rw [Nat.mod_eq_of_lt (by omega)]; omega
    · rw [show p + v.length - 1 = (p - 1) + v.length by omega, Nat.add_mod_right, Nat.mod_eq_of_lt (by omega)]; omega
  have g : ∀ k, k ≠ p → (v.set p x).getD k 0 = v.getD k 0 := fun k hk => by
    simp [List.getD_eq_getElem?_getD, List.getElem?_set_ne (Ne.symm hk)]
  simp only [mxAt, List.length_set, g _ h1, g _ h2]

theorem onXxtea_xxtea (a : XxteaCtx) (k : XxteaCtx → Ctx × Response) : onXxtea (.xxtea a) k = k a := rfl

theorem onXxtea_other (c : Ctx) (k : XxteaCtx → Ctx × Response) (h : c.alg ≠ .xxtea) :
    onXxtea c k = raise .errPhase c := by
  cases c <;> first | rfl | exact absurd rfl h

end Sys2Proof.Machine
end

