-- ==== Sys2Proof/Tests/Slice0.lean ====
section
/-! SUPPORT. The model's own tests: ill-formed terms, every command's decoding from bytes written out by hand from
R91, R92 and R97, small values that `95_test_vectors.md` prints (the name of the vector stands in each comment), and
for every statement that has hypotheses a witness that meets them. -/

namespace Sys2Proof.Tests

open Sys2Proof Sys2Proof.Machine

/-! ### WellFormed: a payload longer than `LEN` can say is refused (R91) -/

theorem test_wellFormed_longest : (Instr.arc4Xfrm 0 0 (List.replicate 65535 0)).WellFormed := by
  simp only [Instr.WellFormed, Instr.payload, List.length_replicate]; decide

theorem test_illFormed_payload : ¬ (Instr.arc4Xfrm 0 0 (List.replicate 65536 0)).WellFormed := by
  simp only [Instr.WellFormed, Instr.payload, List.length_replicate]; decide

/-! ### Decoding, one command per constructor: `W0` least significant byte first, `W1`, payload -/

theorem test_decode_status : decode [0, 0, 0, 0x00, 0, 0, 0, 0] = .command (.status 0 0 0) [] := by decide

/-- V-CTL-2: `W0 = 0x01010000`. -/
theorem test_decode_discard : decode [0, 0, 1, 0x01, 0, 0, 0, 0, 7] = .command (.discard 1 0 0) [7] := by decide

/-- V-ARC4-3: `W0 = 0x10000006`, `W1 = 0x00000300`. -/
theorem test_decode_arc4Init :
    decode [6, 0, 0, 0x10, 0x00, 0x03, 0, 0, 0x53, 0x65, 0x63, 0x72, 0x65, 0x74]
      = .command (.arc4Init 0 768 [0x53, 0x65, 0x63, 0x72, 0x65, 0x74]) [] := by decide

theorem test_decode_arc4Xfrm :
    decode [2, 0, 0, 0x11, 0, 0, 0, 0, 0x41, 0x74, 0x74] = .command (.arc4Xfrm 0 0 [0x41, 0x74]) [0x74] := by decide

/-- V-ARC4-1: `W0 = 0x12000016`. -/
theorem test_decode_arc4Ks : decode [0x16, 0, 0, 0x12, 0, 0, 0, 0] = .command (.arc4Ks 0 22 0) [] := by decide

/-- V-SALSA-7: `W0 = 0x2007000A`. -/
theorem test_decode_salsaInit :
    decode [0x0A, 0, 7, 0x20, 0, 0, 0, 0, 0, 1, 2, 3, 4, 5, 6, 7, 8, 9]
      = .command (.salsaInit 7 0 [0, 1, 2, 3, 4, 5, 6, 7, 8, 9]) [] := by decide

theorem test_decode_salsaXfrm : decode [1, 0, 0, 0x21, 0, 0, 0, 0, 9] = .command (.salsaXfrm 0 0 [9]) [] := by decide

theorem test_decode_xxteaInit : decode [1, 0, 0, 0x30, 4, 3, 2, 1, 9] = .command (.xxteaInit 0 0x01020304 [9]) [] := by
  decide

/-- V-XXTEA-8: `W0 = 0x31000004`. -/
theorem test_decode_xxteaEnc :
    decode [4, 0, 0, 0x31, 0, 0, 0, 0, 0xDE, 0xAD, 0xBE, 0xEF]
      = .command (.xxteaEnc 0 0 [0xDE, 0xAD, 0xBE, 0xEF]) [] := by decide

theorem test_decode_xxteaDec : decode [0, 0, 0, 0x32, 0, 0, 0, 0] = .command (.xxteaDec 0 0 []) [] := by decide

/-- V-ISAAC-5: `W0 = 0x40000003`. -/
theorem test_decode_isaacInit :
    decode [3, 0, 0, 0x40, 0, 0, 0, 0, 0, 0, 0] = .command (.isaacInit 0 0 [0, 0, 0]) [] := by decide

/-- V-ISAAC-2: `W0 = 0x41000400`. -/
theorem test_decode_isaacNext : decode [0, 4, 0, 0x41, 0, 0, 0, 0] = .command (.isaacNext 0 1024 0) [] := by decide

/-- V-CTL-1: `W0 = 0x13000005`: no payload is taken. -/
theorem test_decode_unlisted : decode [5, 0, 0, 0x13, 0, 0, 0, 0, 1, 2] = .unlisted 0x13 [1, 2] := by decide

/-- R101: a payload byte is missing. -/
theorem test_decode_incomplete : decode [2, 0, 0, 0x11, 0, 0, 0, 0, 0x41] = .incomplete := by decide

/-- R93: on the 32-bit port the padding is ignored, whatever it is. -/
theorem test_decodeWords_padding :
    decodeWords [0x11000002, 0, 0xFFFF7441, 5] = .command (.arc4Xfrm 0 0 [0x41, 0x74]) [5] := by decide

theorem test_tableWord_isaacInit : decodeTableWord 32 0x40000000 = some (.isaacInit 0 0 []) := by decide

theorem test_tableWord_unlisted : decodeTableWord 32 0x33000000 = none := by decide

/-! ### Control commands and errors. `blockStep i c` is what `exec` makes of the context `c`. -/

/-- V-CTL-4. -/
theorem test_status_reset : blockStep (.status 0 0 0) .none = (.none, { status := .ok, payload := [0, 0] }) := by decide

/-- V-CTL-2: `STATUS` with `LEN = 1`. -/
theorem test_status_len : (blockStep (.status 0 1 0) .none).2.status = .errFormat := by decide

theorem test_discard : (blockStep (.discard 0 0 0) (.xxtea { K := #v[1, 2, 3, 4] })).1 = .none := by decide

/-- V-CTL-3: `ARC4_INIT` with a 3-byte key and `ARG = 1`. -/
theorem test_priority_format : (blockStep (.arc4Init 1 0 [1, 2, 3]) .none).2.word = 0x12000000 := by decide

/-- V-CTL-3: `XXTEA_ENC` with 8 bytes, then with 6, from the reset state. -/
theorem test_priority_phase :
    (blockStep (.xxteaEnc 0 0 [0, 0, 0, 0, 0, 0, 0, 0]) .none).2.word = 0x11000000 ∧
    (blockStep (.xxteaEnc 0 0 [0, 0, 0, 0, 0, 0]) .none).2.word = 0x12000000 := by decide

/-- V-SALSA-7: the length test comes first, then the round count. -/
theorem test_priority_key :
    (blockStep (.salsaInit 7 0 (List.replicate 10 0)) .none).2.status = .invalidKey ∧
    (blockStep (.salsaInit 10 0 (List.replicate 24 0)) .none).2.status = .invalidParameter := by decide

/-- V-SRC-1: the response word of a 14-byte answer. -/
theorem test_response_word : ({ status := .ok, payload := List.replicate 14 0 } : Response).word = 0x0000000E := by
  decide

/-! ### ARC4 -/

/-- R120, R274: equal indices. -/
theorem test_swap_equal : rd (swap (fill256 id) 17 17) 17 = 17 := by decide +kernel

/-- R122 by hand: from the identity and `I = 0`, `J = 1`: `I = 1`, `J = 2`, `S[1] = 2`, `S[2] = 1`, byte `S[3] = 3`. -/
theorem test_prga_step :
    let r := prga { S := fill256 id, I := 0, J := 1 }
    r.1 = 3 ∧ r.2.I = 1 ∧ r.2.J = 2 ∧ rd r.2.S 1 = 2 ∧ rd r.2.S 2 = 1 := by decide +kernel

/-- V-SRC-1: `ARC4_XFRM` of "Attack at dawn" after the key schedule of "Secret". -/
theorem test_arc4_literal :
    (blockStep (.arc4Xfrm 0 0 [0x41, 0x74, 0x74, 0x61, 0x63, 0x6B, 0x20, 0x61, 0x74, 0x20, 0x64, 0x61, 0x77, 0x6E])
      (blockStep (.arc4Init 0 0 [0x53, 0x65, 0x63, 0x72, 0x65, 0x74]) .none).1).2
      = { status := .ok, payload :=
          [0x45, 0xA0, 0x1F, 0x64, 0x5F, 0xC3, 0x5B, 0x38, 0x35, 0x52, 0x54, 0x4B, 0x9B, 0xF5] } := by decide +kernel

/-- V-ARC4-8: a key of 4 bytes. -/
theorem test_arc4Init_short : (blockStep (.arc4Init 0 0 [0x61, 0x62, 0x63, 0x64]) .none).2.word = 0x01000000 := by decide

/-- V-ARC4-9. -/
theorem test_arc4Ks_zero (c : Arc4Ctx) :
    blockStep (.arc4Ks 0 0 0) (.arc4 c) = (.arc4 c, { status := .ok, payload := [] }) := rfl

/-! ### Salsa20 -/

/-- V-QR, rows 2 and 6. -/
theorem test_quarterRound :
    quarterRound 1 0 0 0 = (0x08008145, 0x00000080, 0x00010200, 0x20500000) ∧
    quarterRound 0xE7E8C006 0xC4F9417D 0x6479B4B2 0x68C67137 = (0xE876D72B, 0x9361DFD5, 0xF1460244, 0x948541A3) := by
  decide

/-- V-ROUND: `doubleround` of the matrix with `x[0] = 1`. -/
theorem test_doubleRound :
    doubleRound #v[1, 0, 0, 0, 0, 0, 0, 0, 0, 0, 0, 0, 0, 0, 0, 0]
      = #v[0x8186A22D, 0x0040A284, 0x82479210, 0x06929051, 0x08000090, 0x02402200, 0x00004000, 0x00800000,
           0x00010200, 0x20400000, 0x08008104, 0x00000000, 0x20500000, 0xA0000040, 0x0008180A, 0x612A8020] := by
  decide +kernel

/-- V-SALSA-4: the matrix for a 16-byte key `00 .. 0F` and the nonce `F0 .. F7`. -/
theorem test_salsaLoad_short :
    salsaLoad [0, 1, 2, 3, 4, 5, 6, 7, 8, 9, 10, 11, 12, 13, 14, 15, 0xF0, 0xF1, 0xF2, 0xF3, 0xF4, 0xF5, 0xF6, 0xF7]
      = #v[0x61707865, 0x03020100, 0x07060504, 0x0B0A0908, 0x0F0E0D0C, 0x3120646E, 0xF3F2F1F0, 0xF7F6F5F4,
           0, 0, 0x79622D36, 0x03020100, 0x07060504, 0x0B0A0908, 0x0F0E0D0C, 0x6B206574] := by decide +kernel

/-- V-SRC-3: Salsa20/8, a key of 0x80 and fifteen zeros, 32 bytes of keystream. -/
theorem test_salsa_literal :
    (blockStep (.salsaXfrm 0 0 (List.replicate 32 0))
      (blockStep (.salsaInit 8 0 (0x80 :: List.replicate 23 0)) .none).1).2.payload
      = [0xA9, 0xC9, 0xF8, 0x88, 0xAB, 0x55, 0x2A, 0x2D, 0x1B, 0xBF, 0xF9, 0xF3, 0x6B, 0xEB, 0xEB, 0x33,
         0x7A, 0x8B, 0x4B, 0x10, 0x7C, 0x75, 0xB6, 0x3B, 0xAE, 0x26, 0xCB, 0x9A, 0x23, 0x5B, 0xBA, 0x9D] := by
  decide +kernel

/-- V-SALSA-6: the carry into the high half, and the wrap of the whole counter. -/
theorem test_salsaCount :
    let m := fun lo hi => salsaCount { X := #v[0, 0, 0, 0, 0, 0, 0, 0, lo, hi, 0, 0, 0, 0, 0, 0], ROUNDS := 8 }
    (m 0xFFFFFFFF 0).X[8] = 0 ∧ (m 0xFFFFFFFF 0).X[9] = 1 ∧
    (m 0xFFFFFFFF 0xFFFFFFFF).X[8] = 0 ∧ (m 0xFFFFFFFF 0xFFFFFFFF).X[9] = 0 := by decide +kernel

/-! ### XXTEA -/

/-- V-MX. -/
theorem test_mx : mx 0x11111111 0x22222222 0x9E3779B9 1 2 #v[1, 2, 3, 4] = 0xD41DDF99 := by decide

/-- R175's example. -/
theorem test_xxteaInit :
    (blockStep (.xxteaInit 0 0
      [1, 2, 4, 8, 0x10, 0x20, 0x40, 0x80, 0xFF, 0xFE, 0xFC, 0xF8, 0xF0, 0xE0, 0xC0, 0x80]) .none).1
      = .xxtea { K := #v[0x08040201, 0x80402010, 0xF8FCFEFF, 0x80C0E0F0] } := by decide

/-- V-XXTEA-8: 15 bytes. -/
theorem test_xxteaInit_short :
    (blockStep (.xxteaInit 0 0 (List.replicate 15 0)) .none).2.status = .invalidKey := by decide

/-- V-XXTEA-2, the second block. -/
theorem test_xxteaEnc :
    (blockStep (.xxteaEnc 0 0 [0xFF, 0xFE, 0xFC, 0xF8, 0xF0, 0xE0, 0xC0, 0x80])
      (.xxtea { K := #v[0x08040201, 0x80402010, 0xF8FCFEFF, 0x80C0E0F0] })).2.payload
      = [0x8C, 0x37, 0x07, 0xC0, 0x1C, 0x7F, 0xCC, 0xC4] := by decide +kernel

/-- V-XXTEA-5: four words, both position bits. -/
theorem test_xxteaEnc_four :
    (blockStep (.xxteaEnc 0 0
      [0x00, 0x11, 0x22, 0x33, 0x44, 0x55, 0x66, 0x77, 0x88, 0x99, 0xAA, 0xBB, 0xCC, 0xDD, 0xEE, 0xFF])
      (.xxtea { K := #v[0x03020100, 0x07060504, 0x0B0A0908, 0x0F0E0D0C] })).2.payload
      = [0xE7, 0x32, 0x12, 0x44, 0xD3, 0x95, 0x46, 0x2E, 0x38, 0x41, 0x2C, 0xD9, 0x81, 0x09, 0x0C, 0xA0] := by
  decide +kernel

/-- V-XXTEA-7: decryption as an operation of its own. -/
theorem test_xxteaDec :
    (blockStep (.xxteaDec 0 0 (List.replicate 8 0)) (.xxtea { K := #v[0, 0, 0, 0] })).2.payload
      = [0xE9, 0x15, 0x02, 0x2C, 0x75, 0xE5, 0xF7, 0x18] := by decide +kernel

/-! ### ISAAC -/

/-- V-MIX, row 2. -/
theorem test_mix :
    mix { a := 1, b := 0, c := 0, d := 0, e := 0, f := 0, g := 0, h := 0 }
      = { a := 0x04010505, b := 0x04010402, c := 0x00040705, d := 0x00000001,
          e := 0x00040501, f := 0x00000102, g := 0x04010402, h := 0x00040604 } := by decide

/-- R193: the eight values after the fourth `mix`. -/
theorem test_goldenMixers :
    goldenMixers
      = { a := 0x1367DF5A, b := 0x95D90059, c := 0xC3163E4B, d := 0x0F421AD8,
          e := 0xD92A4A78, f := 0xA51A3C49, g := 0xC4EFEA1B, h := 0x30609119 } := by decide

/-- R194 by hand: `AA = 1` and a zero memory give `y = 0x2001` at `i = 8`; bits 17:10 of `y` are 8, so the read after
the write returns `y`. -/
theorem test_isaacGenStep :
    let c := isaacGenStep
      { MM := fill256 fun _ => 0, RSL := fill256 fun _ => 0, AA := 1, BB := 0, CC := 1, CNT := 0, OBUF := [] } 8
    c.AA = 0x2001 ∧ rd c.MM 8 = 0x2001 ∧ c.BB = 0x2001 ∧ rd c.RSL 8 = 0x2001 := by decide +kernel

/-- A context one word and three bytes into the generation whose second word is the one V-ISAAC-1 prints. -/
def isaacMid : IsaacCtx :=
  { MM := fill256 fun _ => 0, RSL := fill256 fun k => if k = 1 then 0xD91AA738 else if k = 0 then 0xE76DD339 else 0,
    AA := 0, BB := 0, CC := 1, CNT := 255, OBUF := [0xE7] }

/-- P4 line 4: one byte from the queue, then the four bytes of the next word. -/
theorem test_isaacNext :
    blockStep (.isaacNext 0 5 0) (.isaac isaacMid)
      = (.isaac { isaacMid with CNT := 254, OBUF := [] },
         { status := .ok, payload := [0xE7, 0x38, 0xA7, 0x1A, 0xD9] }) := by decide +kernel

/-- V-ISAAC-5: three bytes of seed. -/
theorem test_isaacInit_refused : (blockStep (.isaacInit 0 0 [0, 0, 0]) .none).2.word = 0x03000000 := by decide

/-! ### The port -/

/-- V-CTL-1 as a step: the answer, and what follows the header stays at the port. -/
theorem test_step_unlisted :
    step { ctx := .none, port := sendBytes [0, 0, 0, 0x02, 0, 0, 0, 0, 0xAA], sent := [] }
      = .next { ctx := .none, port := sendBytes [0xAA], sent := [{ status := .errOpcode, payload := [] }] } := rfl

/-- R270: reset after five bytes of a header. -/
theorem test_step_reset :
    step { ctx := .xxtea { K := #v[1, 2, 3, 4] }, port := sendBytes [4, 0, 0, 0x31, 0] ++ [.reset, .byte 7], sent := [] }
      = .next { ctx := .none, port := [.byte 7], sent := [] } := rfl

theorem test_step_incomplete :
    step { ctx := .none, port := sendBytes [4, 0, 0], sent := [] } = .refused .incompleteCommand := rfl

theorem test_step_placed : step (State.reset.withFetchWord 32 0x01000000)
    = .next (State.reset.answered .none .ok []) := rfl

/-! ### The text form (R102) -/

theorem test_readLine_arc4Init :
    readLine ['A', 'R', 'C', '4', '_', 'I', 'N', 'I', 'T', ' ', ' ', 'k', 'e', 'y', '=', quoteChar, 'a', ' ', '#',
      quoteChar, ' ', 's', 'k', 'i', 'p', '=', '0', 'x', '1', 'F', ' ', '#', 'c']
      = some (.arc4Init [0x61, 0x20, 0x23] (some 31)) := by decide

theorem test_readLine_xxteaDec :
    readLine ['X', 'X', 'T', 'E', 'A', '_', 'D', 'E', 'C', ' ', 'd', 'a', 't', 'a', '=', 'a', 'B', '0', '4']
      = some (.xxteaDec [0xAB, 0x04]) := by decide

/-! ### Witnesses: for every statement with hypotheses, a state and operands that meet them all -/

def arc4Ctx0 : Arc4Ctx := { S := fill256 id, I := 0, J := 0 }
def salsaCtx0 : SalsaCtx :=
  { X := #v[0x61707865, 0, 0, 0, 0, 0x3120646E, 0, 0, 0, 0, 0x79622D36, 0, 0, 0, 0, 0x6B206574], ROUNDS := 20 }
def xxteaCtx0 : XxteaCtx := { K := #v[1, 2, 3, 4] }
def isaacCtx0 : IsaacCtx := { isaacMid with CNT := 256, OBUF := [] }
def withCtx (c : Ctx) : State := { ctx := c, port := [], sent := [] }

/-- `DecodeOfEncodeIsTheCommand`, `WordPortCarriesTheSameCommand`, `StatusFollowsTheCheckOrder`: the longest payload
and none. -/
theorem witness_wellFormed :
    (Instr.salsaXfrm 1 2 (List.replicate 65535 3)).WellFormed ∧ (Instr.isaacNext 0 65535 0).WellFormed := by
  constructor
  · simp only [Instr.WellFormed, Instr.payload, List.length_replicate]; decide
  · decide

/-- `EncodeOfDecodeIsTheBytes`. -/
theorem witness_decoded : decode [1, 0, 0, 0x11, 0, 0, 0, 0, 5, 6] = .command (.arc4Xfrm 0 0 [5]) [6] := by decide

/-- `ResponseWordFields`. -/
theorem witness_response_length : ({ status := .ok, payload := List.replicate 65535 1 } : Response).payload.length < 65536 := by
  simp only [List.length_replicate]; decide

/-- `StepRunsTheDecodedCommand`. -/
theorem witness_port_decodes :
    decode (portBytes (sendBytes [0, 0, 0, 0x01, 0, 0, 0, 0, 9] ++ [.reset])) = .command (.discard 0 0 0) [9] := by decide

/-- `StepTakesExactlyOneCommand`. -/
theorem witness_port_holds_command :
    ∃ s : State, (Instr.arc4Ks 0 3 0).WellFormed ∧ s.port = sendBytes (encode (.arc4Ks 0 3 0)) ++ [.reset] :=
  ⟨{ ctx := .none, port := sendBytes (encode (.arc4Ks 0 3 0)) ++ [.reset], sent := [] }, by decide, rfl⟩

/-- The twelve numbers of R244. -/
def listedOpcodes : List Byte := [0x00, 0x01, 0x10, 0x11, 0x12, 0x20, 0x21, 0x30, 0x31, 0x32, 0x40, 0x41]

/-- `UnlistedOpcodeIsRefusedAlone`, both clauses: the opcodes next to listed ones, and a listed command's answer. -/
theorem witness_unlisted :
    (0x02000000 : Word).extractLsb' 24 8 ∉ listedOpcodes ∧
    ({ ctx := .none, port := sendBytes [0, 0, 0, 0x02, 0, 0, 0, 0, 0xAA], sent := [] } : State).port
      = sendBytes (bytesLe32 0x02000000 ++ bytesLe32 0) ++ [.byte 0xAA] ∧ (0xFF000000 : Word).extractLsb' 24 8 ∉ listedOpcodes ∧
    exec (.status 0 0 0) State.reset = .next (State.reset.answered .none .ok [0, 0]) ∧
    (State.reset.answered .none .ok [0, 0]).sent = State.reset.sent ++ [{ status := .ok, payload := [0, 0] }] :=
  ⟨by decide, by decide, by decide, rfl, rfl⟩

/-- `IdleBlockKeepsItsState`, `RunOfCommandsCompletes`. -/
theorem witness_idle : (withCtx (.arc4 arc4Ctx0)).port = [] := rfl

/-- `ResetInputClearsTheContext`: nothing sent, seven header bytes, all but the last payload byte. -/
theorem witness_part_of_a_command :
    decode [] = .incomplete ∧ decode [4, 0, 0, 0x31, 0, 0, 0] = .incomplete ∧
    decode [4, 0, 0, 0x31, 0, 0, 0, 0, 1, 2, 3] = .incomplete ∧
    ({ ctx := .xxtea xxteaCtx0, port := sendBytes [4, 0] ++ .reset :: [], sent := [] } : State).port
      = sendBytes [4, 0] ++ .reset :: [] := by decide

/-- `CommandIsAFunctionOfTheContext`: two different states with one context. -/
theorem witness_same_context :
    ∃ s s' : State, s.ctx = s'.ctx ∧ s ≠ s' :=
  ⟨withCtx (.xxtea xxteaCtx0), { ctx := .xxtea xxteaCtx0, port := [.reset], sent := [] }, rfl, by decide⟩

/-- `FailedCommandChangesNothing`. -/
theorem witness_failed :
    exec (.discard 1 0 0) (withCtx (.xxtea xxteaCtx0))
      = .next ((withCtx (.xxtea xxteaCtx0)).answered (.xxtea xxteaCtx0) .errFormat []) ∧ Status.errFormat ≠ .ok :=
  ⟨rfl, by decide⟩

/-- `FormatErrorExactly`: each of the four causes, and none of them. -/
theorem witness_format :
    formatError (.arc4Xfrm 1 0 []) ∧ formatError (.salsaInit 8 1 []) ∧ formatError (.discard 0 1 0) ∧
    formatError (.xxteaDec 0 0 [0, 0, 0, 0, 0, 0]) ∧ ¬ formatError (.salsaInit 255 0 []) ∧
    ¬ formatError (.arc4Init 0 0xFFFFFFFF []) := by
  refine ⟨?_, ?_, ?_, ?_, ?_, ?_⟩ <;> decide

/-- `PhaseErrorExactly`: a phase error under another tag, none under the command's own. -/
theorem witness_phase :
    ¬ formatError (.isaacNext 0 4 0) ∧ phaseError .arc4 (.isaacNext 0 4 0) ∧ ¬ phaseError .isaac (.isaacNext 0 4 0) := by
  decide

/-- `KeyMaterialErrorsExactly`: each error at the lengths next to the legal ones, and no error at the legal ones. -/
theorem witness_key_material :
    keyError (.arc4Init 0 0 (List.replicate 4 0)) ∧ ¬ keyError (.arc4Init 0 0 (List.replicate 5 0)) ∧
    ¬ keyError (.arc4Init 0 0 (List.replicate 256 0)) ∧ keyError (.arc4Init 0 0 (List.replicate 257 0)) ∧
    keyError (.salsaInit 8 0 (List.replicate 25 0)) ∧ ¬ keyError (.salsaInit 8 0 (List.replicate 40 0)) ∧
    keyError (.xxteaInit 0 0 (List.replicate 17 0)) ∧ ¬ keyError (.xxteaInit 0 0 (List.replicate 16 0)) ∧
    seedError (.isaacInit 0 0 (List.replicate 3 0)) ∧ parameterError (.salsaInit 9 0 (List.replicate 24 0)) ∧
    ¬ parameterError (.salsaInit 20 0 (List.replicate 24 0)) := by
  refine ⟨?_, ?_, ?_, ?_, ?_, ?_, ?_, ?_, ?_, ?_, ?_⟩ <;> decide +kernel

/-- `KeyMaterialErrorsExactly`, `IsaacInitSeedsTheGenerator`: the longest seed and the next length. -/
theorem witness_seed_length :
    ¬ seedError (.isaacInit 0 0 (List.replicate 1024 0)) ∧ seedError (.isaacInit 0 0 (List.replicate 1028 0)) := by
  constructor <;> decide +kernel

/-- `TagFollowsTheTransitionTable`, `InitialisationForgetsTheOldContext`. -/
theorem witness_init_completes :
    (Instr.xxteaInit 0 0 (List.replicate 16 0)).op ∈ [Op.arc4Init, Op.salsaInit, Op.xxteaInit, Op.isaacInit] ∧
    exec (.xxteaInit 0 0 (List.replicate 16 0)) (withCtx (.salsa20 salsaCtx0))
      = .next ((withCtx (.salsa20 salsaCtx0)).answered (.xxtea { K := #v[0, 0, 0, 0] }) .ok []) :=
  ⟨by decide, rfl⟩

/-- `RunOfCommandsCompletes`. -/
theorem witness_commands :
    (∀ i ∈ [Instr.arc4Ks 0 65535 0, .status 0 1 0, .xxteaEnc 0 0 [1]], i.WellFormed) ∧
    (withCtx (.arc4 arc4Ctx0)).port = [] := ⟨by decide, rfl⟩

/-- `EveryStepKeepsTheInvariant`: a live context of each algorithm that has an invariant, and a step from it. -/
theorem witness_invariant_arc4 : (withCtx (.arc4 arc4Ctx0)).Inv :=
  ⟨fun v => ⟨v, by simp [arc4Ctx0, rd, fill256], fun i hi => by simpa [arc4Ctx0, rd, fill256] using hi⟩,
    by simp [withCtx]⟩

theorem witness_invariant_salsa : (withCtx (.salsa20 salsaCtx0)).Inv :=
  ⟨⟨by decide, by decide, by decide, by decide⟩, by simp [withCtx]⟩

theorem witness_invariant_isaac : (withCtx (.isaac isaacMid)).Inv :=
  ⟨⟨by decide, by decide, fun _ => ⟨by decide, by decide +kernel⟩⟩, by simp [withCtx]⟩

theorem witness_invariant_step : step (withCtx (.isaac isaacMid)) = .next (withCtx (.isaac isaacMid)) := rfl

/-- `StatusReportsTagAndRounds`, `DiscardEndsTheContext`: a context of each tag, and a field that is not 0. -/
theorem witness_status :
    (withCtx (.salsa20 salsaCtx0)).ctx = .salsa20 salsaCtx0 ∧ State.reset.ctx = .none ∧
    (withCtx (.arc4 arc4Ctx0)).ctx = .arc4 arc4Ctx0 ∧ (withCtx (.xxtea xxteaCtx0)).ctx = .xxtea xxteaCtx0 ∧
    (withCtx (.isaac isaacCtx0)).ctx = .isaac isaacCtx0 ∧
    ((1 : Byte) ≠ 0 ∨ (0 : BitVec 16) ≠ 0 ∨ (0 : Word) ≠ 0) := ⟨rfl, rfl, rfl, rfl, rfl, by decide⟩

/-- `KeyScheduleFollowsTheLoop`, `Arc4InitSchedulesAndSkips`, `Arc4SkipDiscardsKeystream`: the shortest and the
longest key, and the lengths next to them. -/
theorem witness_arc4_key :
    (5 ≤ (List.replicate 5 (0 : Byte)).length ∧ (List.replicate 5 (0 : Byte)).length ≤ 256) ∧
    (5 ≤ (List.replicate 256 (0 : Byte)).length ∧ (List.replicate 256 (0 : Byte)).length ≤ 256) ∧
    (List.replicate 4 (0 : Byte)).length < 5 ∧ 256 < (List.replicate 257 (0 : Byte)).length := by
  simp only [List.length_replicate]; decide

/-- `Arc4TransformXorsTheStream`, `Arc4KeystreamIsTheStream`, `Arc4InputMaySplitAnywhere`,
`Arc4DecryptsFromAnEqualContext`. -/
theorem witness_arc4_live :
    (withCtx (.arc4 arc4Ctx0)).ctx = .arc4 arc4Ctx0 ∧
    ({ ctx := .arc4 arc4Ctx0, port := [.reset], sent := [] } : State).ctx = .arc4 arc4Ctx0 := ⟨rfl, rfl⟩

/-- `SalsaInitLoadsTheMatrix`, `SalsaInitRefusals`: the legal lengths and round counts, and values next to them. -/
theorem witness_salsa_init :
    (((8 : Byte) = 8 ∨ (8 : Byte) = 12 ∨ (8 : Byte) = 20) ∧
      ((List.replicate 24 (0 : Byte)).length = 24 ∨ (List.replicate 24 (0 : Byte)).length = 40)) ∧
    (((20 : Byte) = 8 ∨ (20 : Byte) = 12 ∨ (20 : Byte) = 20) ∧
      ((List.replicate 40 (0 : Byte)).length = 24 ∨ (List.replicate 40 (0 : Byte)).length = 40)) ∧
    ((List.replicate 32 (0 : Byte)).length ≠ 24 ∧ (List.replicate 32 (0 : Byte)).length ≠ 40) ∧
    ((9 : Byte) ≠ 8 ∧ (9 : Byte) ≠ 12 ∧ (9 : Byte) ≠ 20) := by decide

/-- `SalsaTransformXorsTheBlocks`, `SalsaInputMaySplitAtBlocks`, `SalsaDecryptsFromAnEqualContext`,
`SalsaBlockNumberIsTheCounter`. -/
theorem witness_salsa_live :
    (withCtx (.salsa20 salsaCtx0)).ctx = .salsa20 salsaCtx0 ∧
    ({ ctx := .salsa20 salsaCtx0, port := [.reset], sent := [] } : State).ctx = .salsa20 salsaCtx0 ∧
    (List.replicate 64 (0 : Byte)).length % 64 = 0 ∧ ([] : List Byte).length % 64 = 0 ∧
    salsaCtx0.X[8] = 0 ∧ salsaCtx0.X[9] = 0 := ⟨rfl, rfl, by simp, rfl, rfl, rfl⟩

/-- `SalsaKeyWordsStay`: a command that moves the counter, and its next state. -/
theorem witness_salsa_moves :
    (Instr.salsaXfrm 0 0 [0]).op ≠ .salsaInit ∧
    ∃ t : State, exec (.salsaXfrm 0 0 [0]) (withCtx (.salsa20 salsaCtx0)) = .next t ∧
      t.ctx = .salsa20 (salsaCount salsaCtx0) := ⟨by decide, _, rfl, rfl⟩

/-- `XxteaInitLoadsTheKey`, the statements on `XXTEA_ENC` and `XXTEA_DEC`: legal and illegal key lengths, the smallest
block that is mixed, the two that are not. -/
theorem witness_xxtea :
    (List.replicate 16 (0 : Byte)).length = 16 ∧ (List.replicate 15 (0 : Byte)).length ≠ 16 ∧
    (withCtx (.xxtea xxteaCtx0)).ctx = .xxtea xxteaCtx0 ∧
    ({ ctx := .xxtea xxteaCtx0, port := [.reset], sent := [] } : State).ctx = .xxtea xxteaCtx0 ∧
    (List.replicate 8 (0 : Byte)).length = 4 * 2 ∧ 2 ≤ 2 ∧
    (List.replicate 4 (0 : Byte)).length = 4 ∧ ([] : List Byte).length = 0 ∧
    (List.replicate 12 (0 : Byte)).length % 4 = 0 := ⟨by simp, by simp, rfl, rfl, by simp, by simp, by simp, rfl, by simp⟩

/-- `IsaacInitSeedsTheGenerator`, `IsaacShortSeedIsZeroFilled`: no seed, the longest seed, and the refused lengths. -/
theorem witness_isaac_seed :
    (([] : List Byte).length ≤ 1024 ∧ ([] : List Byte).length % 4 = 0) ∧
    ((List.replicate 1024 (0 : Byte)).length ≤ 1024 ∧ (List.replicate 1024 (0 : Byte)).length % 4 = 0) ∧
    1024 < (List.replicate 1028 (0 : Byte)).length ∧ (List.replicate 1023 (0 : Byte)).length % 4 ≠ 0 ∧
    (1020 % 4 = 0 ∧ ([1, 2, 3, 4] : List Byte).length % 4 = 0 ∧ ([1, 2, 3, 4] : List Byte).length + 1020 ≤ 1024) := by
  simp only [List.length_replicate]; decide

/-- `IsaacDrawTakesTheNextWord`: a full countdown, and none left. -/
theorem witness_isaac_countdown :
    isaacCtx0.CNT.toNat ≤ 256 ∧ isaacCtx0.CNT ≠ 0 ∧
    ({ isaacCtx0 with CNT := 0 } : IsaacCtx).CNT.toNat ≤ 256 ∧ ({ isaacCtx0 with CNT := 0 } : IsaacCtx).CNT = 0 :=
  ⟨by decide, by decide, by decide, rfl⟩

/-- `IsaacNextDeliversTheBytes`, `IsaacRequestsMaySplitAnywhere`, `IsaacByteNumberSelectsItsWord`. -/
theorem witness_isaac_live :
    (withCtx (.isaac isaacMid)).ctx = .isaac isaacMid ∧ isaacMid.OBUF = 0xE7 :: [] ∧ isaacCtx0.OBUF = [] ∧
    isaacCtx0.CNT = 256 ∧ (65534 : BitVec 16).toNat + (1 : BitVec 16).toNat < 65536 :=
  ⟨rfl, rfl, rfl, rfl, by decide⟩

end Sys2Proof.Tests
end

section
/-! SUPPORT. Encoded commands at the port (R70, R93): the decoder reads back exactly the command the host encoded, and
a step takes exactly that command. -/

namespace Sys2Proof

open Machine

/-- The decoder reads back an encoded command and leaves what follows (R93, R101). -/
theorem decode_encode (i : Instr) (rest : List Byte) (h : i.WellFormed) :
    decode (encode i ++ rest) = .command i rest := by
  rw [encode, List.append_assoc, decode_header]
  simp [decodeHeader, payloadLength_w0 i h, ofFields_eq]

namespace Machine

/-- A step takes one encoded command off the port and runs it, whatever stands behind it (R70). -/
theorem step_of_encode (s : State) (i : Instr) (more : List PortEvent) (h : i.WellFormed) :
    step { s with port := sendBytes (encode i) ++ more } = exec i { s with port := more } := by
  simp only [step, fetch, portBytes_sendBytes, decode_encode i _ h, port_after]

theorem sendCommands_cons (i : Instr) (is : List Instr) :
    sendCommands (i :: is) = sendBytes (encode i) ++ sendCommands is := by
  simp [sendCommands, sendBytes_append]

end Machine

end Sys2Proof
end

section
/-! SUPPORT. The state after a command and after a list of commands, and the run that reaches it. -/

namespace Sys2Proof.Machine

/-- The state after one command: the answer of R9 delivered. -/
def State.after (s : State) (i : Instr) : State := deliver (blockStep i s.ctx) s

/-- The state after a list of commands, in order. -/
def State.afterAll (s : State) (is : List Instr) : State := is.foldl State.after s

theorem exec_eq_next_after (i : Instr) (s : State) : exec i s = .next (s.after i) := exec_eq_answer i s

/-- `exec_eq_answer` in the words of the statements: context, status and payload apart. -/
theorem exec_eq_answered (i : Instr) (s : State) :
    exec i s = .next (s.answered (blockStep i s.ctx).1 (blockStep i s.ctx).2.status (blockStep i s.ctx).2.payload) :=
  exec_eq_answer i s

@[simp] theorem after_port (s : State) (i : Instr) : (s.after i).port = s.port := rfl
@[simp] theorem after_sent (s : State) (i : Instr) : (s.after i).sent = s.sent ++ [(blockStep i s.ctx).2] := rfl

@[simp] theorem afterAll_nil (s : State) : s.afterAll [] = s := rfl
@[simp] theorem afterAll_cons (s : State) (i : Instr) (is : List Instr) :
    s.afterAll (i :: is) = (s.after i).afterAll is := rfl

theorem afterAll_take_succ (s : State) (is : List Instr) (k : Nat) (i : Instr) (h : is[k]? = some i) :
    s.afterAll (is.take (k + 1)) = (s.afterAll (is.take k)).after i := by
  simp [State.afterAll, List.take_add_one, h]

@[simp] theorem afterAll_port (s : State) (is : List Instr) : (s.afterAll is).port = s.port := by
  induction is generalizing s with
  | nil => rfl
  | cons i is ih => simp [ih]

/-- One response per command (R95). -/
theorem afterAll_sent (s : State) (is : List Instr) :
    ∃ rs : List Response, rs.length = is.length ∧ (s.afterAll is).sent = s.sent ++ rs := by
  induction is generalizing s with
  | nil => exact ⟨[], rfl, by simp⟩
  | cons i is ih =>
    obtain ⟨rs, hlen, hsent⟩ := ih (s.after i)
    exact ⟨(blockStep i s.ctx).2 :: rs, by simp [hlen], by simp [hsent]⟩

theorem run_succ_of_step (M : Host.Core) (k : Nat) (s t : M.State) (h : M.step s = .next t) :
    M.run (k + 1) s = M.run k t := by
  simp only [Host.Core.run, h]

/-- A run over the commands at the port, whatever stands behind them, is the commands applied in order. -/
theorem run_sendCommands (is : List Instr) (s : State) (more : List PortEvent) (h : ∀ i ∈ is, i.WellFormed) :
    core.run is.length ({ s with port := sendCommands is ++ more } : State)
      = .next (({ s with port := more } : State).afterAll is) := by
  induction is generalizing s with
  | nil => rfl
  | cons i is ih =>
    have hstep : step { s with port := sendCommands (i :: is) ++ more }
        = .next { s.after i with port := sendCommands is ++ more } := by
      rw [sendCommands_cons, List.append_assoc, step_of_encode s i _ (h i List.mem_cons_self), exec_eq_next_after]
      rfl
    exact (run_succ_of_step core is.length _ _ hstep).trans
      (ih (s.after i) fun j hj => h j (List.mem_cons_of_mem i hj))

end Sys2Proof.Machine
end

section
/-! Proofs about all commands and runs of them (O14, O22). -/

namespace Sys2Proof.Machine

/-- Settles O14: both states answer what the block function makes of their common context. -/
theorem commandIsAFunctionOfTheContext : Obligations.CommandIsAFunctionOfTheContext := by
  intro i s s' hctx
  refine ⟨_, _, _, exec_eq_answered i s, ?_⟩
  rw [hctx]
  exact exec_eq_answered i s'

/-- Settles O22: the states passed through are those after the first `k` commands. -/
theorem runOfCommandsCompletes : Obligations.RunOfCommandsCompletes := by
  intro cmds s hwf hport
  refine ⟨fun k => s.afterAll (cmds.take k), rfl, ?_, ?_, ?_, ?_⟩
  · intro k i hi
    simp only [exec_eq_next_after, afterAll_take_succ s cmds k i hi]
  · have hs : ({ s with port := [] } : State) = s := by rw [← hport]
    simpa [hs] using run_sendCommands cmds s [] hwf
  · simpa using hport
  · simpa using afterAll_sent s cmds

end Sys2Proof.Machine
end

section
/-! Proof of the Salsa20 double-round written out (O37): the rotation of R7 is the library's, a quarter-round in place
is known entry by entry, and each of the two passes is its 16 words. -/

namespace Sys2Proof.Machine

/-- The two shifts of R7 are the rotation of the library. -/
theorem rotl32_eq_rotateLeft (v : Word) (n : Nat) (h : n < 32) : rotl32 v n = v.rotateLeft n := by
  rw [BitVec.rotateLeft_def, Nat.mod_eq_of_lt h, rotl32]

/-- R141 with the rotation of the library. -/
theorem quarterRound_eq_rotateLeft (y0 y1 y2 y3 : Word) :
    let z1 := y1 ^^^ (y0 + y3).rotateLeft 7
    let z2 := y2 ^^^ (z1 + y0).rotateLeft 9
    let z3 := y3 ^^^ (z2 + z1).rotateLeft 13
    let z0 := y0 ^^^ (z3 + z2).rotateLeft 18
    quarterRound y0 y1 y2 y3 = (z0, z1, z2, z3) := by
  simp [quarterRound, rotl32_eq_rotateLeft]

/-- The entries after a quarter-round in place: the four it writes, the last write first, and the others kept. -/
theorem getElem_quarterAt (x : Matrix) (a b c d : Fin 16) (i : Nat) (hi : i < 16) :
    (quarterAt x a b c d)[i] =
      if d = i then (quarterRound x[a] x[b] x[c] x[d]).2.2.2
      else if c = i then (quarterRound x[a] x[b] x[c] x[d]).2.2.1
      else if b = i then (quarterRound x[a] x[b] x[c] x[d]).2.1
      else if a = i then (quarterRound x[a] x[b] x[c] x[d]).1
      else x[i] := by
  simp [quarterAt, Vector.getElem_set]

/-- The 16 words of the column pass (R142). -/
theorem columnRound_eq (x : Matrix) :
    let c0 := quarterRound x[0] x[4] x[8] x[12]
    let c1 := quarterRound x[5] x[9] x[13] x[1]
    let c2 := quarterRound x[10] x[14] x[2] x[6]
    let c3 := quarterRound x[15] x[3] x[7] x[11]
    columnRound x = #v[c0.1, c1.2.2.2, c2.2.2.1, c3.2.1, c0.2.1, c1.1, c2.2.2.2, c3.2.2.1,
      c0.2.2.1, c1.2.1, c2.1, c3.2.2.2, c0.2.2.2, c1.2.2.1, c2.2.1, c3.1] := by
  intro c0 c1 c2 c3
  ext i hi : 1
  interval_cases i <;> simp [columnRound, getElem_quarterAt, c0, c1, c2, c3]

/-- The 16 words of the row pass (R143). -/
theorem rowRound_eq (x : Matrix) :
    let r0 := quarterRound x[0] x[1] x[2] x[3]
    let r1 := quarterRound x[5] x[6] x[7] x[4]
    let r2 := quarterRound x[10] x[11] x[8] x[9]
    let r3 := quarterRound x[15] x[12] x[13] x[14]
    rowRound x = #v[r0.1, r0.2.1, r0.2.2.1, r0.2.2.2, r1.2.2.2, r1.1, r1.2.1, r1.2.2.1,
      r2.2.2.1, r2.2.2.2, r2.1, r2.2.1, r3.2.1, r3.2.2.1, r3.2.2.2, r3.1] := by
  intro r0 r1 r2 r3
  ext i hi : 1
  interval_cases i <;> simp [rowRound, getElem_quarterAt, r0, r1, r2, r3]

/-- Settles O37: the quarter-round's rotations are the library's, and the row pass reads the words of the column
pass. -/
theorem doubleRoundIsColumnsThenRows : Obligations.DoubleRoundIsColumnsThenRows := by
  refine ⟨quarterRound_eq_rotateLeft, fun x => ?_⟩
  intro c0 c1 c2 c3 r0 r1 r2 r3
  rw [doubleRound, columnRound_eq, rowRound_eq]
  rfl

end Sys2Proof.Machine
end

section
/-! SUPPORT. How a command ends (R220): one of its checks fails and only the response changes, or it completes with the
context and the payload of its algorithm. -/

namespace Sys2Proof.Machine

/-! When a check passes, and that a check which fails never answers `OK`. -/

@[simp] theorem argZero_eq_none {a : Byte} : argZero a = none ↔ a = 0 := by simp [argZero]
@[simp] theorem operandZero_eq_none {w : Word} : operandZero w = none ↔ w = 0 := by simp [operandZero]
@[simp] theorem lenZero_eq_none {n : BitVec 16} : lenZero n = none ↔ n = 0 := by simp [lenZero]
@[simp] theorem wholeWords_eq_none {n : Nat} : wholeWords n = none ↔ n % 4 = 0 := by simp [wholeWords]
@[simp] theorem arc4KeyLength_eq_none {n : Nat} : arc4KeyLength n = none ↔ 5 ≤ n ∧ n ≤ 256 := by
  simp [arc4KeyLength]
@[simp] theorem salsaKeyLength_eq_none {n : Nat} : salsaKeyLength n = none ↔ n = 24 ∨ n = 40 := by
  simp [salsaKeyLength, or_iff_not_imp_left]
@[simp] theorem salsaRoundCount_eq_none {r : Byte} : salsaRoundCount r = none ↔ r = 8 ∨ r = 12 ∨ r = 20 := by
  simp [salsaRoundCount, or_iff_not_imp_left]
@[simp] theorem xxteaKeyLength_eq_none {n : Nat} : xxteaKeyLength n = none ↔ n = 16 := by simp [xxteaKeyLength]
@[simp] theorem isaacSeedLength_eq_none {n : Nat} : isaacSeedLength n = none ↔ n ≤ 1024 ∧ n % 4 = 0 := by
  simp [isaacSeedLength]

@[simp] theorem ok_ne_argZero (a : Byte) : some .ok ≠ argZero a := by simp [argZero]
@[simp] theorem ok_ne_operandZero (w : Word) : some .ok ≠ operandZero w := by simp [operandZero]
@[simp] theorem ok_ne_lenZero (n : BitVec 16) : some .ok ≠ lenZero n := by simp [lenZero]
@[simp] theorem ok_ne_wholeWords (n : Nat) : some .ok ≠ wholeWords n := by simp [wholeWords]
@[simp] theorem ok_ne_arc4KeyLength (n : Nat) : some .ok ≠ arc4KeyLength n := by simp [arc4KeyLength]
@[simp] theorem ok_ne_salsaKeyLength (n : Nat) : some .ok ≠ salsaKeyLength n := by simp [salsaKeyLength]
@[simp] theorem ok_ne_salsaRoundCount (r : Byte) : some .ok ≠ salsaRoundCount r := by simp [salsaRoundCount]
@[simp] theorem ok_ne_xxteaKeyLength (n : Nat) : some .ok ≠ xxteaKeyLength n := by simp [xxteaKeyLength]
@[simp] theorem ok_ne_isaacSeedLength (n : Nat) : some .ok ≠ isaacSeedLength n := by simp [isaacSeedLength]

/-- The two ends of a command that starts from the context `c`: it fails with a status other than `OK`, or it completes
with a context and a payload that `done` allows. -/
def Ends (c : Ctx) (done : Ctx → List Byte → Prop) (r : Ctx × Response) : Prop :=
  (∃ st, st ≠ .ok ∧ r = raise st c) ∨ ∃ c' p, done c' p ∧ r = complete c' p

section
variable {c : Ctx} {done : Ctx → List Byte → Prop}

theorem ends_complete {c' : Ctx} {p : List Byte} (h : done c' p) : Ends c done (complete c' p) :=
  .inr ⟨c', p, h, rfl⟩

theorem ends_errPhase : Ends c done (raise .errPhase c) := .inl ⟨_, by decide, rfl⟩

theorem ends_guarded {l : List (Option Status)} {k : Ctx × Response} (hok : some .ok ∉ l)
    (hk : (∀ o ∈ l, o = none) → Ends c done k) : Ends c done (guarded l c k) := by
  rcases guarded_cases l c k with ⟨st, hst, h⟩ | ⟨hnone, h⟩
  · exact .inl ⟨st, fun e => hok (e ▸ hst), h⟩
  · rw [h]
    exact hk hnone

theorem ends_onArc4 {k : Arc4Ctx → Ctx × Response} (hk : ∀ a, c = .arc4 a → Ends c done (k a)) :
    Ends c done (onArc4 c k) := by
  cases c with
  | arc4 a => exact hk a rfl
  | _ => exact ends_errPhase

theorem ends_onSalsa {k : SalsaCtx → Ctx × Response} (hk : ∀ a, c = .salsa20 a → Ends c done (k a)) :
    Ends c done (onSalsa c k) := by
  cases c with
  | salsa20 a => exact hk a rfl
  | _ => exact ends_errPhase

theorem ends_onXxtea {k : XxteaCtx → Ctx × Response} (hk : ∀ a, c = .xxtea a → Ends c done (k a)) :
    Ends c done (onXxtea c k) := by
  cases c with
  | xxtea a => exact hk a rfl
  | _ => exact ends_errPhase

theorem ends_onIsaac {k : IsaacCtx → Ctx × Response} (hk : ∀ a, c = .isaac a → Ends c done (k a)) :
    Ends c done (onIsaac c k) := by
  cases c with
  | isaac a => exact hk a rfl
  | _ => exact ends_errPhase

end

/-- `Completes c i c' p`: from the context `c` the command `i` passes its checks, leaves the context `c'` and sends the
payload `p` (the effects of R123 to R125, R148, R149, R175 to R177, R197, R198, R222, R223). -/
inductive Completes (c : Ctx) : Instr → Ctx → List Byte → Prop
  | status : Completes c (.status 0 0 0) c [c.alg.code.setWidth 8, statusRounds c]
  | discard : Completes c (.discard 0 0 0) .none []
  | arc4Init (skip : Word) (key : List Byte) (hkey : 5 ≤ key.length ∧ key.length ≤ 256) :
    Completes c (.arc4Init 0 skip key) (.arc4 (arc4Skip skip.toNat (arc4Fresh key))) []
  | arc4Xfrm (a : Arc4Ctx) (data : List Byte) (hc : c = .arc4 a) :
    Completes c (.arc4Xfrm 0 0 data) (.arc4 (arc4Transform data a).2) (arc4Transform data a).1
  | arc4Ks (a : Arc4Ctx) (len : BitVec 16) (hc : c = .arc4 a) :
    Completes c (.arc4Ks 0 len 0) (.arc4 (arc4Keystream len.toNat a).2) (arc4Keystream len.toNat a).1
  | salsaInit (rounds : Byte) (keyNonce : List Byte) (hkey : keyNonce.length = 24 ∨ keyNonce.length = 40)
    (hrounds : rounds = 8 ∨ rounds = 12 ∨ rounds = 20) :
    Completes c (.salsaInit rounds 0 keyNonce)
      (.salsa20 { X := salsaLoad keyNonce, ROUNDS := rounds.setWidth 5 }) []
  | salsaXfrm (a : SalsaCtx) (data : List Byte) (hc : c = .salsa20 a) :
    Completes c (.salsaXfrm 0 0 data) (.salsa20 (salsaTransform data a).2) (salsaTransform data a).1
  | xxteaInit (key : List Byte) (hkey : key.length = 16) :
    Completes c (.xxteaInit 0 0 key) (.xxtea { K := xxteaLoad key }) []
  | xxteaEnc (a : XxteaCtx) (data : List Byte) (hc : c = .xxtea a) (hdata : data.length % 4 = 0) :
    Completes c (.xxteaEnc 0 0 data) c (serLe (xxteaEncrypt a.K (wordsLe data)))
  | xxteaDec (a : XxteaCtx) (data : List Byte) (hc : c = .xxtea a) (hdata : data.length % 4 = 0) :
    Completes c (.xxteaDec 0 0 data) c (serLe (xxteaDecrypt a.K (wordsLe data)))
  | isaacInit (seed : List Byte) (hseed : seed.length ≤ 1024 ∧ seed.length % 4 = 0) :
    Completes c (.isaacInit 0 0 seed) (.isaac (isaacFresh seed)) []
  | isaacNext (a : IsaacCtx) (len : BitVec 16) (hc : c = .isaac a) :
    Completes c (.isaacNext 0 len 0) (.isaac (isaacBytes len.toNat a).2) (isaacBytes len.toNat a).1

/-- Every command ends in one of the two ways, from every context. -/
theorem blockStep_ends (i : Instr) (c : Ctx) : Ends c (Completes c i) (blockStep i c) := by
  cases i with
  | status arg len operand =>
    refine ends_guarded (by simp) fun h => ?_
    obtain ⟨rfl, rfl, rfl⟩ : arg = 0 ∧ operand = 0 ∧ len = 0 := by simpa using h
    exact ends_complete .status
  | discard arg len operand =>
    refine ends_guarded (by simp) fun h => ?_
    obtain ⟨rfl, rfl, rfl⟩ : arg = 0 ∧ operand = 0 ∧ len = 0 := by simpa using h
    exact ends_complete .discard
  | arc4Init arg skip key =>
    refine ends_guarded (by simp) fun h => ?_
    obtain ⟨rfl, hkey⟩ : arg = 0 ∧ _ := by simpa using h
    exact ends_complete (.arc4Init skip key hkey)
  | arc4Xfrm arg operand data =>
    refine ends_guarded (by simp) fun h => ends_onArc4 fun a hc => ?_
    obtain ⟨rfl, rfl⟩ : arg = 0 ∧ operand = 0 := by simpa using h
    exact ends_complete (.arc4Xfrm a data hc)
  | arc4Ks arg len operand =>
    refine ends_guarded (by simp) fun h => ends_onArc4 fun a hc => ?_
    obtain ⟨rfl, rfl⟩ : arg = 0 ∧ operand = 0 := by simpa using h
    exact ends_complete (.arc4Ks a len hc)
  | salsaInit rounds operand keyNonce =>
    refine ends_guarded (by simp) fun h => ?_
    obtain ⟨rfl, hkey, hrounds⟩ : operand = 0 ∧ _ ∧ _ := by simpa using h
    exact ends_complete (.salsaInit rounds keyNonce hkey hrounds)
  | salsaXfrm arg operand data =>
    refine ends_guarded (by simp) fun h => ends_onSalsa fun a hc => ?_
    obtain ⟨rfl, rfl⟩ : arg = 0 ∧ operand = 0 := by simpa using h
    exact ends_complete (.salsaXfrm a data hc)
  | xxteaInit arg operand key =>
    refine ends_guarded (by simp) fun h => ?_
    obtain ⟨rfl, rfl, hkey⟩ : arg = 0 ∧ operand = 0 ∧ _ := by simpa using h
    exact ends_complete (.xxteaInit key hkey)
  | xxteaEnc arg operand data =>
    refine ends_guarded (by simp) fun h => ends_onXxtea fun a hc => ?_
    obtain ⟨rfl, rfl, hdata⟩ : arg = 0 ∧ operand = 0 ∧ _ := by simpa using h
    exact ends_complete (.xxteaEnc a data hc hdata)
  | xxteaDec arg operand data =>
    refine ends_guarded (by simp) fun h => ends_onXxtea fun a hc => ?_
    obtain ⟨rfl, rfl, hdata⟩ : arg = 0 ∧ operand = 0 ∧ _ := by simpa using h
    exact ends_complete (.xxteaDec a data hc hdata)
  | isaacInit arg operand seed =>
    refine ends_guarded (by simp) fun h => ?_
    obtain ⟨rfl, rfl, hseed⟩ : arg = 0 ∧ operand = 0 ∧ _ := by simpa using h
    exact ends_complete (.isaacInit seed hseed)
  | isaacNext arg len operand =>
    refine ends_guarded (by simp) fun h => ends_onIsaac fun a hc => ?_
    obtain ⟨rfl, rfl⟩ : arg = 0 ∧ operand = 0 := by simpa using h
    exact ends_complete (.isaacNext a len hc)

/-- A completed command that the port can carry sends a payload that `RLEN` can count (R95). -/
theorem Completes.payload_length_lt {c c' : Ctx} {i : Instr} {p : List Byte} (h : Completes c i c' p)
    (hw : i.WellFormed) : p.length < 65536 := by
  cases h with
  | status | discard | arc4Init | salsaInit | xxteaInit | isaacInit => simp
  | arc4Xfrm a data =>
    have hdata : data.length < 65536 := hw
    simpa [arc4Transform_eq] using hdata
  | salsaXfrm a data =>
    have hdata : data.length < 65536 := hw
    simpa using hdata
  | xxteaEnc a data | xxteaDec a data =>
    have hdata : data.length < 65536 := hw
    simp [wordsLe_length]
    omega
  | arc4Ks a len | isaacNext a len => simpa using len.isLt

end Sys2Proof.Machine
end

section
/-! SUPPORT. The ARC4 array stays a permutation (R25, R126): reading it is a bijection, and an exchange permutes the
indices. -/

namespace Sys2Proof.Machine

theorem arc4Inv_iff (c : Arc4Ctx) : c.Inv ↔ Function.Bijective (rd c.S) :=
  (Function.bijective_iff_existsUnique _).symm

/-- After an exchange an entry is the old one at the exchanged index (R120). -/
theorem rd_swap (S : Vector Byte 256) (a b k : Byte) : rd (swap S a b) k = rd S (Equiv.swap a b k) := by
  simp only [swap, rd_wr, Equiv.swap_apply_def]
  split_ifs <;> simp_all

theorem bijective_rd_swap {S : Vector Byte 256} (h : Function.Bijective (rd S)) (a b : Byte) :
    Function.Bijective (rd (swap S a b)) := by
  have : rd (swap S a b) = rd S ∘ Equiv.swap a b := funext (rd_swap S a b)
  exact this ▸ h.comp (Equiv.swap a b).bijective

theorem bijective_rd_fill256_id : Function.Bijective (rd (fill256 (id : Byte → Byte))) := by
  rw [show rd (fill256 (id : Byte → Byte)) = id from funext (rd_fill256 id)]
  exact Function.bijective_id

theorem bijective_rd_foldl_ksaStep (key l : List Byte) (st : Vector Byte 256 × Byte)
    (h : Function.Bijective (rd st.1)) : Function.Bijective (rd (l.foldl (ksaStep key) st).1) :=
  foldl_keeps (fun st => Function.Bijective (rd st.1)) (ksaStep key) (fun _ _ h => bijective_rd_swap h _ _) l st h

/-- The key schedule exchanges entries of the identity, whatever the key (R121). -/
theorem bijective_rd_ksa (key : List Byte) : Function.Bijective (rd (ksa key)) :=
  bijective_rd_foldl_ksaStep key indices256 _ bijective_rd_fill256_id

theorem arc4Fresh_inv (key : List Byte) : (arc4Fresh key).Inv := (arc4Inv_iff _).mpr (bijective_rd_ksa key)

theorem prgaNext_inv (c : Arc4Ctx) (h : c.Inv) : (prgaNext c).Inv :=
  (arc4Inv_iff _).mpr (bijective_rd_swap ((arc4Inv_iff c).mp h) _ _)

theorem prgaNext_iterate_inv (n : Nat) (c : Arc4Ctx) (h : c.Inv) : (prgaNext^[n] c).Inv :=
  prgaNext_iterate_keeps Arc4Ctx.Inv prgaNext_inv n c h

end Sys2Proof.Machine
end

section
/-! SUPPORT. The matrix words and the round count that the Salsa20 counter does not touch (R146, R151), and the layout
that the key load gives them (R147). -/

namespace Sys2Proof.Machine

/-- The two contexts differ in the counter words `X[8]` and `X[9]` at most. -/
def SalsaCtx.SameKey (c c' : SalsaCtx) : Prop :=
  c'.ROUNDS = c.ROUNDS ∧ ∀ k : Fin 16, k ≠ 8 → k ≠ 9 → c'.X[k] = c.X[k]

theorem SalsaCtx.SameKey.rounds {c c' : SalsaCtx} (h : c.SameKey c') : c'.ROUNDS = c.ROUNDS := h.1

theorem SalsaCtx.SameKey.word {c c' : SalsaCtx} (h : c.SameKey c') (k : Nat) (hk : k < 16) (h8 : k ≠ 8) (h9 : k ≠ 9) :
    c'.X[k] = c.X[k] :=
  h.2 ⟨k, hk⟩ (Fin.ne_of_val_ne h8) (Fin.ne_of_val_ne h9)

theorem SalsaCtx.SameKey.refl (c : SalsaCtx) : c.SameKey c := ⟨rfl, fun _ _ _ => rfl⟩

theorem SalsaCtx.SameKey.trans {a b c : SalsaCtx} (hab : a.SameKey b) (hbc : b.SameKey c) : a.SameKey c :=
  ⟨hbc.1.trans hab.1, fun k h8 h9 => (hbc.2 k h8 h9).trans (hab.2 k h8 h9)⟩

theorem salsaCount_sameKey (c : SalsaCtx) : c.SameKey (salsaCount c) := by
  refine ⟨rfl, fun k h8 h9 => ?_⟩
  have h8' : 8 ≠ k.val := fun e => h8 (Fin.ext e.symm)
  have h9' : 9 ≠ k.val := fun e => h9 (Fin.ext e.symm)
  simp only [salsaCount]
  split <;> simp [h8', h9']

theorem salsaTransform_sameKey (d : List Byte) (c : SalsaCtx) : c.SameKey (salsaTransform d c).2 := by
  rw [salsaTransform_ctx]
  exact salsaCount_iterate_keeps c.SameKey (fun b h => h.trans (salsaCount_sameKey b)) _ c (.refl c)

/-- The invariant speaks of no counter word. -/
theorem SalsaCtx.SameKey.inv {c c' : SalsaCtx} (h : c.SameKey c') (hc : c.Inv) : c'.Inv := by
  simpa (disch := decide) only [SalsaCtx.Inv, h.rounds, h.word] using hc

/-- The key load writes the constant words of the key's length, and a short key twice. -/
theorem salsaLoad_inv (p : List Byte) (r : BitVec 5) (hp : p.length = 24 ∨ p.length = 40)
    (hr : r = 8 ∨ r = 12 ∨ r = 20) : SalsaCtx.Inv { X := salsaLoad p, ROUNDS := r } := by
  refine ⟨hr, ?_⟩
  rcases hp with hp | hp
  · simp [salsaLoad, salsaConstants, Config.salsaNonceLen, hp]
  · simp [salsaLoad, salsaConstants, Config.salsaNonceLen, hp]

end Sys2Proof.Machine
end

section
/-! SUPPORT. The ISAAC countdown and queue (R29): a draw leaves at most 255 words, and the queue holds the last bytes of
the word drawn last. -/

namespace Sys2Proof.Machine

theorem isaacFresh_inv (seed : List Byte) : (isaacFresh seed).Inv := by
  have hobuf : (isaacFresh seed).OBUF = [] := by simp [isaacFresh]
  have hcnt : (isaacFresh seed).CNT = 256 := by simp [isaacFresh]
  simp [IsaacCtx.Inv, hobuf, hcnt]

/-- The word drawn is the result entry that the new countdown selects (R195). -/
theorem isaacDraw_word (c : IsaacCtx) :
    (isaacDraw c).1 = rd (isaacDraw c).2.RSL (drawIndex (isaacDraw c).2.CNT) := rfl

theorem isaacDraw_cnt_le (c : IsaacCtx) (h : c.CNT ≤ 256) : (isaacDraw c).2.CNT ≤ 255 := by
  unfold isaacDraw
  by_cases hzero : c.CNT = 0
  · simp [hzero]
  · simp only [if_neg hzero]
    bv_omega

/-- A byte from an empty queue comes from a draw, and the other three bytes of the word wait (R196). -/
theorem isaacNextCtx_of_empty {c : IsaacCtx} (h : c.OBUF = []) :
    isaacNextCtx c = { (isaacDraw c).2 with OBUF := (bytesLe32 (isaacDraw c).1).tail } := by
  simp [isaacNextCtx, isaacByte, h]

/-- A byte from a waiting queue is its head (R196). -/
theorem isaacNextCtx_of_waiting {c : IsaacCtx} (h : c.OBUF ≠ []) : isaacNextCtx c = { c with OBUF := c.OBUF.tail } := by
  simp [isaacNextCtx, isaacByte, h]

theorem isaacNextCtx_inv (c : IsaacCtx) (h : c.Inv) : (isaacNextCtx c).Inv := by
  obtain ⟨hcnt, hlen, hqueue⟩ := h
  by_cases hempty : c.OBUF = []
  · have hdraw := isaacDraw_cnt_le c hcnt
    rw [isaacNextCtx_of_empty hempty, isaacDraw_word]
    refine ⟨?_, by simp, fun _ => ⟨hdraw, by simp⟩⟩
    bv_omega
  · obtain ⟨hcnt', hbytes⟩ := hqueue hempty
    have hpos : 0 < c.OBUF.length := List.length_pos_iff.mpr hempty
    rw [isaacNextCtx_of_waiting hempty]
    refine ⟨hcnt, by simp; omega, fun _ => ⟨hcnt', ?_⟩⟩
    have hdrop : 4 - c.OBUF.tail.length = 4 - c.OBUF.length + 1 := by rw [List.length_tail]; omega
    simp only [hdrop]
    rw [← List.tail_drop, ← hbytes]

theorem isaacNextCtx_iterate_inv (n : Nat) (c : IsaacCtx) (h : c.Inv) : (isaacNextCtx^[n] c).Inv :=
  isaacNextCtx_iterate_keeps IsaacCtx.Inv isaacNextCtx_inv n c h

end Sys2Proof.Machine
end

section
/-! SUPPORT. A decoded command is one that the port can carry: its payload is cut to the 16-bit `LEN` (R91, R101). -/

namespace Sys2Proof

theorem payloadLength_lt (w0 : Word) : payloadLength w0 < 65536 := by
  unfold payloadLength
  split
  · split
    · exact (lenField w0).isLt
    · simp
  · simp

theorem ofFields_payload_length_le (o : Op) (arg : Byte) (len : BitVec 16) (w1 : Word) (p : List Byte) :
    (Instr.ofFields o arg len w1 p).payload.length ≤ p.length := by
  cases o <;> simp [Instr.ofFields, Instr.payload]

theorem wellFormed_of_decodeHeader {w0 w1 : Word} {bs rest : List Byte} {i : Instr}
    (h : decodeHeader w0 w1 bs = .command i rest) : i.WellFormed := by
  unfold decodeHeader at h
  split at h
  · cases h
  · next o _ =>
    split at h
    · cases h
    · cases h
      have hle := ofFields_payload_length_le o (argField w0) (lenField w0) w1 (bs.take (payloadLength w0))
      have hlt := payloadLength_lt w0
      rw [List.length_take] at hle
      simp only [Instr.WellFormed]
      omega

theorem wellFormed_of_decode {bs rest : List Byte} {i : Instr} (h : decode bs = .command i rest) : i.WellFormed := by
  rcases decode_cases bs with ⟨hinc, _⟩ | ⟨w0, w1, more, _, hheader⟩
  · rw [hinc] at h
    cases h
  · exact wellFormed_of_decodeHeader (hheader ▸ h)

end Sys2Proof
end

section
/-! Proofs about the invariant of the machine (O23, O24) and the key words of a Salsa20 context (O44). -/

namespace Sys2Proof.Machine

/-- Settles O23: there is no context, and no response has been sent. -/
theorem resetMeetsTheInvariant : Obligations.ResetMeetsTheInvariant := ⟨trivial, by simp⟩

/-- A completed command leaves a context that meets the invariant. -/
theorem Completes.inv {c c' : Ctx} {i : Instr} {p : List Byte} (h : Completes c i c' p) (hinv : c.Inv) : c'.Inv := by
  cases h with
  | discard | xxteaInit => trivial
  | status | xxteaEnc | xxteaDec => exact hinv
  | arc4Init skip key =>
    rw [arc4Skip_eq_iterate]
    exact prgaNext_iterate_inv _ _ (arc4Fresh_inv key)
  | arc4Xfrm a data hc =>
    subst hc
    rw [arc4Transform_eq, arc4Keystream_ctx]
    exact prgaNext_iterate_inv _ a hinv
  | arc4Ks a len hc =>
    subst hc
    rw [arc4Keystream_ctx]
    exact prgaNext_iterate_inv _ a hinv
  | salsaInit rounds keyNonce hkey hrounds =>
    refine salsaLoad_inv keyNonce _ hkey ?_
    rcases hrounds with rfl | rfl | rfl
    · exact .inl rfl
    · exact .inr (.inl rfl)
    · exact .inr (.inr rfl)
  | salsaXfrm a data hc =>
    subst hc
    exact (salsaTransform_sameKey data a).inv hinv
  | isaacInit seed => exact isaacFresh_inv seed
  | isaacNext a len hc =>
    subst hc
    rw [isaacBytes_ctx]
    exact isaacNextCtx_iterate_inv _ a hinv

theorem raise_response_inv (st : Status) (c : Ctx) : (raise st c).2.Inv := by simp [Response.Inv]

/-- Whichever way a command ends, its context and its response are sound. -/
theorem blockStep_inv (i : Instr) (c : Ctx) (hw : i.WellFormed) (hc : c.Inv) :
    (blockStep i c).1.Inv ∧ (blockStep i c).2.Inv := by
  rcases blockStep_ends i c with ⟨st, _, hfail⟩ | ⟨c', p, hdone, hok⟩
  · rw [hfail]
    exact ⟨hc, raise_response_inv st c⟩
  · rw [hok]
    exact ⟨hdone.inv hc, by simp, hdone.payload_length_lt hw⟩

/-- The port takes no part in the invariant. -/
theorem State.Inv.after_deliver {s : State} (hs : s.Inv) {r : Ctx × Response} (hctx : r.1.Inv) (hresp : r.2.Inv)
    (port : List PortEvent) : (deliver r { s with port := port }).Inv := by
  refine ⟨hctx, fun q hq => ?_⟩
  rcases List.mem_append.mp hq with hold | hnew
  · exact hs.2 q hold
  · exact List.mem_singleton.mp hnew ▸ hresp

/-- Settles O24: a step runs a command, answers an unlisted opcode, takes a reset, or is idle. -/
theorem everyStepKeepsTheInvariant : Obligations.EveryStepKeepsTheInvariant := by
  intro s t hs hstep
  rcases step_cases s with ⟨i, rest, hdec, h⟩ | ⟨op, rest, -, h⟩ | ⟨e, rest, -, -, h⟩ | ⟨-, h⟩ | ⟨-, -, -, h⟩
  · rw [h, exec_eq_answer] at hstep
    cases hstep
    obtain ⟨hctx, hresp⟩ := blockStep_inv i s.ctx (wellFormed_of_decode hdec) hs.1
    exact hs.after_deliver hctx hresp _
  · rw [h] at hstep
    cases hstep
    exact hs.after_deliver hs.1 (raise_response_inv .errOpcode s.ctx) _
  · rw [h] at hstep
    cases hstep
    exact ⟨trivial, hs.2⟩
  · rw [h] at hstep
    cases hstep
    exact hs
  · rw [h] at hstep
    cases hstep

/-- A completed command other than `SALSA_INIT` that goes from a Salsa20 context to one keeps key, constants and
`ROUNDS` (R151). -/
theorem Completes.sameKey {c c' : SalsaCtx} {i : Instr} {p : List Byte}
    (h : Completes (.salsa20 c) i (.salsa20 c') p) (hi : i.op ≠ .salsaInit) : c.SameKey c' := by
  cases h with
  | status => exact .refl c
  | salsaInit => exact absurd rfl hi
  | salsaXfrm a data hc =>
    cases hc
    exact salsaTransform_sameKey data c
  | xxteaEnc a data hc | xxteaDec a data hc => cases hc

/-- Settles O44: a command that fails keeps the whole context. -/
theorem salsaKeyWordsStay : Obligations.SalsaKeyWordsStay := by
  intro i s t c c' hi hs hexec ht
  rw [exec_eq_answer, hs] at hexec
  cases hexec
  rcases blockStep_ends i (.salsa20 c) with ⟨st, _, hfail⟩ | ⟨q, p, hdone, hok⟩
  · rw [deliver_ctx, hfail, raise_ctx] at ht
    cases ht
    exact SalsaCtx.SameKey.refl c
  · rw [deliver_ctx, hok, complete_ctx] at ht
    subst ht
    exact hdone.sameKey hi

end Sys2Proof.Machine
end

section
/-! Proofs about the command a step takes from its port (O7, O8). -/

namespace Sys2Proof.Machine

/-- What the decoder finds before the first reset is what the block takes; the bytes the decoder leaves stay in front
of that reset. -/
theorem fetch_of_decode {port : List PortEvent} {i : Instr} {rest : List Byte}
    (h : decode (portBytes port) = .command i rest) :
    fetch port = .command i (sendBytes rest ++ fromReset port) := by
  rw [fetch, h]

/-- A step runs the command it takes, on the port that is left. -/
theorem step_of_fetch {s : State} {i : Instr} {left : List PortEvent} (h : fetch s.port = .command i left) :
    step s = exec i { s with port := left } := by
  rw [step, h]

/-- Settles O7: the decoded command is the one the block takes. -/
theorem stepRunsTheDecodedCommand : Obligations.StepRunsTheDecodedCommand :=
  fun _ _ _ hdec => step_of_fetch (fetch_of_decode hdec)

/-- Settles O8: the decoder reads back exactly the encoded command, so a step leaves exactly the moves behind it. -/
theorem stepTakesExactlyOneCommand : Obligations.StepTakesExactlyOneCommand := by
  intro s i more hwf hport
  have hs : s = { s with port := sendBytes (encode i) ++ more } := by rw [← hport]
  rw [hs]
  exact step_of_encode s i more hwf

end Sys2Proof.Machine
end

section
/-! SUPPORT. The opcode map on an unlisted byte, what the decoder makes of a header that holds one, and the record that
a command made from header fields gives back (R91, R93, R97, R99). -/

namespace Sys2Proof

open Machine

/-- A byte selects no row exactly when it is not in the `OPCODE` column (R97). -/
theorem ofCode_eq_none_iff (b : Byte) : Op.ofCode b = none ↔ b ∉ Op.all.map Op.code := by
  simp [Op.ofCode]

/-- A header with an unlisted opcode is read alone (R99). -/
theorem decode_unlisted {w0 : Word} (w1 : Word) (rest : List Byte) (h : Op.ofCode (opcodeField w0) = none) :
    decode (bytesLe32 w0 ++ bytesLe32 w1 ++ rest) = .unlisted (opcodeField w0) rest := by
  rw [decode_header, decodeHeader, h]

/-- A header with a listed opcode and its payload are the command of their fields (R101). -/
theorem decodeHeader_eq_command {w0 w1 : Word} {bs rest : List Byte} {i : Instr}
    (h : decodeHeader w0 w1 bs = .command i rest) :
    ∃ o p, Op.ofCode (opcodeField w0) = some o ∧ p.length = payloadLength w0 ∧ bs = p ++ rest ∧
      i = Instr.ofFields o (argField w0) (lenField w0) w1 p := by
  unfold decodeHeader at h
  split at h
  · cases h
  · next o ho =>
    split at h
    · cases h
    · next hlong =>
      cases h
      exact ⟨o, bs.take (payloadLength w0), ho, by rw [List.length_take]; omega, by simp, rfl⟩

theorem payloadLength_of_ofCode {w0 : Word} {o : Op} (h : Op.ofCode (opcodeField w0) = some o) :
    payloadLength w0 = if o.format.hasPayload then (lenField w0).toNat else 0 := by
  rw [payloadLength, h]

@[simp] theorem op_ofFields (o : Op) (arg : Byte) (len : BitVec 16) (w : Word) (p : List Byte) :
    (Instr.ofFields o arg len w p).op = o := by cases o <;> rfl

@[simp] theorem arg_ofFields (o : Op) (arg : Byte) (len : BitVec 16) (w : Word) (p : List Byte) :
    (Instr.ofFields o arg len w p).arg = arg := by cases o <;> rfl

@[simp] theorem operand_ofFields (o : Op) (arg : Byte) (len : BitVec 16) (w : Word) (p : List Byte) :
    (Instr.ofFields o arg len w p).operand = w := by cases o <;> rfl

/-- The payload bytes that `LEN` announces are kept, and `LEN` is read back (R91, R94). -/
theorem payload_len_ofFields (o : Op) (arg : Byte) (len : BitVec 16) (w : Word) (p : List Byte)
    (h : p.length = if o.format.hasPayload then len.toNat else 0) :
    (Instr.ofFields o arg len w p).payload = p ∧ (Instr.ofFields o arg len w p).len = len := by
  cases o with
  | status | discard | arc4Ks | isaacNext => exact ⟨(List.length_eq_zero_iff.mp h).symm, rfl⟩
  | arc4Init | arc4Xfrm | salsaInit | salsaXfrm | xxteaInit | xxteaEnc | xxteaDec | isaacInit =>
    have hlen : p.length = len.toNat := h
    exact ⟨rfl, by simp [Instr.ofFields, Instr.len, hlen]⟩

/-- Encoding the command read from a header gives the header and its payload back (R93). -/
theorem encode_ofFields {w0 : Word} {o : Op} {p : List Byte} (w1 : Word) (ho : Op.ofCode (opcodeField w0) = some o)
    (hp : p.length = payloadLength w0) :
    encode (Instr.ofFields o (argField w0) (lenField w0) w1 p) = bytesLe32 w0 ++ bytesLe32 w1 ++ p := by
  obtain ⟨hpayload, hlen⟩ :=
    payload_len_ofFields o (argField w0) (lenField w0) w1 p (hp.trans (payloadLength_of_ofCode ho))
  rw [encode, Instr.w0, op_ofFields, arg_ofFields, operand_ofFields, hpayload, hlen, code_of_ofCode ho,
    headerWord_fields]

end Sys2Proof
end

section
/-! SUPPORT. The status of each check of R220, and that no command is answered with `ERR_OPCODE` (R244). -/

namespace Sys2Proof.Machine

/-! The one status that each check can raise, and when. -/

@[simp] theorem some_eq_argZero {st : Status} {a : Byte} : some st = argZero a ↔ a ≠ 0 ∧ st = .errFormat := by
  simp [argZero]
@[simp] theorem some_eq_operandZero {st : Status} {w : Word} :
    some st = operandZero w ↔ w ≠ 0 ∧ st = .errFormat := by simp [operandZero]
@[simp] theorem some_eq_lenZero {st : Status} {n : BitVec 16} : some st = lenZero n ↔ n ≠ 0 ∧ st = .errFormat := by
  simp [lenZero]
@[simp] theorem some_eq_wholeWords {st : Status} {n : Nat} :
    some st = wholeWords n ↔ n % 4 ≠ 0 ∧ st = .errFormat := by simp [wholeWords]
@[simp] theorem some_eq_arc4KeyLength {st : Status} {n : Nat} :
    some st = arc4KeyLength n ↔ (n < 5 ∨ 256 < n) ∧ st = .invalidKey := by simp [arc4KeyLength]
@[simp] theorem some_eq_salsaKeyLength {st : Status} {n : Nat} :
    some st = salsaKeyLength n ↔ (n ≠ 24 ∧ n ≠ 40) ∧ st = .invalidKey := by simp [salsaKeyLength]
@[simp] theorem some_eq_salsaRoundCount {st : Status} {r : Byte} :
    some st = salsaRoundCount r ↔ (r ≠ 8 ∧ r ≠ 12 ∧ r ≠ 20) ∧ st = .invalidParameter := by simp [salsaRoundCount]
@[simp] theorem some_eq_xxteaKeyLength {st : Status} {n : Nat} :
    some st = xxteaKeyLength n ↔ n ≠ 16 ∧ st = .invalidKey := by simp [xxteaKeyLength]
@[simp] theorem some_eq_isaacSeedLength {st : Status} {n : Nat} :
    some st = isaacSeedLength n ↔ (1024 < n ∨ n % 4 ≠ 0) ∧ st = .invalidSeed := by simp [isaacSeedLength, eq_comm]

/-- A status that no check of a chain raises comes from what the chain goes on with. -/
theorem guarded_status_ne {st : Status} {l : List (Option Status)} {c : Ctx} {k : Ctx × Response}
    (hl : some st ∉ l) (hk : k.2.status ≠ st) : (guarded l c k).2.status ≠ st := by
  rcases guarded_cases l c k with ⟨st', hmem, h⟩ | ⟨-, h⟩
  · rw [h]
    rintro rfl
    exact hl hmem
  · rwa [h]

/-- A listed command raises format, phase, key, parameter and seed errors only. -/
theorem blockStep_status_ne_errOpcode (i : Instr) (c : Ctx) : (blockStep i c).2.status ≠ .errOpcode := by
  cases i with
  | status | discard | arc4Init | salsaInit | xxteaInit | isaacInit => exact guarded_status_ne (by simp) (by simp)
  | arc4Xfrm | arc4Ks => exact guarded_status_ne (by simp) (by cases c <;> simp [onArc4])
  | salsaXfrm => exact guarded_status_ne (by simp) (by cases c <;> simp [onSalsa])
  | xxteaEnc | xxteaDec => exact guarded_status_ne (by simp) (by cases c <;> simp [onXxtea])
  | isaacNext => exact guarded_status_ne (by simp) (by cases c <;> simp [onIsaac])

/-- The one response of a command is that of the block's function (R9, R95). -/
theorem response_of_exec {s t : State} {i : Instr} {r : Response} (h : exec i s = .next t)
    (hr : t.sent = s.sent ++ [r]) : r = (blockStep i s.ctx).2 := by
  rw [exec_eq_answer] at h
  cases h
  simpa using hr.symm

/-- A step answers a header with an unlisted opcode and takes nothing else from the port (R99). -/
theorem step_of_unlisted (s : State) {w0 : Word} (w1 : Word) (more : List PortEvent)
    (h : Op.ofCode (opcodeField w0) = none) (hport : s.port = sendBytes (bytesLe32 w0 ++ bytesLe32 w1) ++ more) :
    step s = .next (({ s with port := more } : State).failed .errOpcode) := by
  have hfetch : fetch s.port = .unlisted (opcodeField w0) more := by
    simp only [fetch, hport, portBytes_sendBytes, decode_unlisted w1 _ h, port_after]
  rw [step, hfetch]
  rfl

end Sys2Proof.Machine
end

section
/-! SUPPORT. The ARC4 transform of zero bytes (R125). -/

namespace Sys2Proof.Machine

theorem arc4Transform_replicate_zero (n : Nat) (c : Arc4Ctx) :
    arc4Transform (List.replicate n 0) c = arc4Keystream n c := by
  induction n generalizing c with
  | zero => rfl
  | succ n ih => simpa [List.replicate_succ, arc4Transform, arc4Keystream, Prod.ext_iff] using ih (prga c).2

end Sys2Proof.Machine
end

section
/-! Proofs about the encoding of commands and responses (O1 to O6, O9) and the equivalent forms of a command (O33,
O60). -/

namespace Sys2Proof.Machine

/-- Settles O1: the header carries the length of the payload, and a command is the record of its fields. -/
theorem decodeOfEncodeIsTheCommand : Obligations.DecodeOfEncodeIsTheCommand := decode_encode

/-- Settles O2: a decoded command is made from the fields of its header, which the encoder writes back. -/
theorem encodeOfDecodeIsTheBytes : Obligations.EncodeOfDecodeIsTheBytes := by
  intro bs rest i hdec
  refine ⟨wellFormed_of_decode hdec, ?_⟩
  rcases decode_cases bs with ⟨hinc, -⟩ | ⟨w0, w1, more, hbs, hheader⟩
  · rw [hinc] at hdec
    cases hdec
  · obtain ⟨o, p, ho, hp, rfl, rfl⟩ := decodeHeader_eq_command (hheader ▸ hdec)
    rw [hbs, encode_ofFields w1 ho hp, List.append_assoc _ p]

/-- Settles O3: the packed payload is as many words as `LEN` asks for, and its first `LEN` bytes are the payload. -/
theorem wordPortCarriesTheSameCommand : Obligations.WordPortCarriesTheSameCommand := by
  intro i rest hwf
  have hlen : (i.payload.length + 3) / 4 = (packLe i.payload).length := (packLe_length i.payload).symm
  simp [encodeWords, decodeWords, payloadLength_w0 i hwf, hlen, take_serLe_packLe, ofFields_eq]

/-- Settles O4: the decoder evaluated on the written-out bytes. -/
theorem writtenOutCommandsDecode : Obligations.WrittenOutCommandsDecode := by
  unfold Obligations.WrittenOutCommandsDecode
  decide

/-- Settles O5: the map answers a row only on its code, and finds every row by its code. -/
theorem opcodeSelectsExactlyItsRow : Obligations.OpcodeSelectsExactlyItsRow := by
  refine ⟨fun b o => ⟨code_of_ofCode, ?_⟩, by decide⟩
  rintro rfl
  exact ofCode_code o

/-- Settles O6: the fields of the word are read back, and a length below 65536 is kept by 16 bits. -/
theorem responseWordFields : Obligations.ResponseWordFields := by
  refine ⟨fun r hlen => ⟨fields32_high _ _ _, fields32_mid _ _ _, ?_, rfl⟩, by decide⟩
  rw [Response.word, fields32_low, BitVec.toNat_ofNat, Nat.mod_eq_of_lt hlen]

/-- Settles O9: an opcode outside the table selects no row, and the checks of a listed command raise other statuses. -/
theorem unlistedOpcodeIsRefusedAlone : Obligations.UnlistedOpcodeIsRefusedAlone := by
  refine ⟨fun s w0 w1 more hop hport => ?_, fun s t i hexec r hsent => ?_⟩
  · exact step_of_unlisted s w1 more ((ofCode_eq_none_iff _).mpr hop) hport
  · rw [response_of_exec hexec hsent]
    exact blockStep_status_ne_errOpcode i s.ctx

/-- Settles O33: both commands make the same checks, and the transform of zero bytes is the keystream. -/
theorem arc4KeystreamIsTransformOfZeros : Obligations.Arc4KeystreamIsTransformOfZeros := by
  intro s len
  simp only [exec, execArc4Ks, execArc4Xfrm, arc4Transform_replicate_zero]

/-- Settles O60: each line is a case of the assembler. -/
theorem pseudoCommandsAreAliases : Obligations.PseudoCommandsAreAliases :=
  fun _ _ => ⟨rfl, rfl, rfl, rfl, rfl, rfl, rfl⟩

end Sys2Proof.Machine
end

section
/-! SUPPORT. The ARC4 operations that the statements of `40_arc4.md` speak of: an exchange entry by entry (R120), the
generator step field by field (R122), the rounds of the key schedule (R121), and the transform byte by byte (R124,
R126). -/

namespace Sys2Proof.Machine

/-- The exchange by cases on the index (R120). -/
theorem rd_swap_eq_ite (S : Vector Byte 256) (a b k : Byte) :
    rd (swap S a b) k = if k = a then rd S b else if k = b then rd S a else rd S k := by
  rw [rd_swap, Equiv.swap_apply_def]
  split_ifs <;> rfl

@[simp] theorem rd_swap_left (S : Vector Byte 256) (a b : Byte) : rd (swap S a b) a = rd S b := by
  rw [rd_swap, Equiv.swap_apply_left]

@[simp] theorem rd_swap_right (S : Vector Byte 256) (a b : Byte) : rd (swap S a b) b = rd S a := by
  rw [rd_swap, Equiv.swap_apply_right]

theorem rd_swap_of_ne (S : Vector Byte 256) {a b k : Byte} (ha : k ≠ a) (hb : k ≠ b) :
    rd (swap S a b) k = rd S k := by
  rw [rd_swap, Equiv.swap_apply_of_ne_of_ne ha hb]

/-- Array and index of the key schedule before round `n` (R121). -/
def ksaRounds (key : List Byte) (n : Nat) : Vector Byte 256 × Byte := loopTo (ksaStep key) (fill256 id, 0) n

theorem ksaRounds_zero (key : List Byte) : ksaRounds key 0 = (fill256 id, 0) := rfl

theorem ksaRounds_succ (key : List Byte) (n : Nat) :
    ksaRounds key (n + 1) = ksaStep key (ksaRounds key n) (BitVec.ofNat 8 n) := rfl

theorem ksa_eq_ksaRounds (key : List Byte) : ksa key = (ksaRounds key 256).1 := by
  rw [ksa, foldl_indices256, ksaRounds]

theorem ksaStep_fst (key : List Byte) (st : Vector Byte 256 × Byte) (i : Byte) :
    (ksaStep key st i).1 = swap st.1 i (ksaStep key st i).2 := rfl

theorem ksaStep_snd (key : List Byte) (st : Vector Byte 256 × Byte) (i : Byte) :
    (ksaStep key st i).2 = st.2 + rd st.1 i + key.getD (i.toNat % key.length) 0 := rfl

/-- The index of round `n` is `n` itself, as the loop has 256 rounds (R121). -/
theorem ksaRounds_succ_snd (key : List Byte) {n : Nat} (hn : n < 256) :
    (ksaRounds key (n + 1)).2
      = (ksaRounds key n).2 + rd (ksaRounds key n).1 (BitVec.ofNat 8 n) + key.getD (n % key.length) 0 := by
  rw [ksaRounds_succ, ksaStep_snd, BitVec.toNat_ofNat, Nat.mod_eq_of_lt hn]

theorem prga_ctx_S (c : Arc4Ctx) : (prga c).2.S = swap c.S (c.I + 1) (c.J + rd c.S (c.I + 1)) := rfl

theorem arc4Transform_ctx (d : List Byte) (c : Arc4Ctx) : (arc4Transform d c).2 = prgaNext^[d.length] c := by
  rw [arc4Transform_eq, arc4Keystream_ctx]

@[simp] theorem arc4Transform_length (d : List Byte) (c : Arc4Ctx) : (arc4Transform d c).1.length = d.length := by
  simp [arc4Transform_eq]

theorem arc4Transform_getD (d : List Byte) (c : Arc4Ctx) (k : Nat) (hk : k < d.length) :
    (arc4Transform d c).1.getD k 0 = d.getD k 0 ^^^ (prga (prgaNext^[k] c)).1 := by
  rw [arc4Transform_eq, xorBytes_getD _ _ k hk (by simpa using hk), arc4Keystream_getD _ c k hk]

/-- A byte XORed twice with one keystream byte is the byte again (R126). -/
theorem arc4Transform_arc4Transform (d : List Byte) (c : Arc4Ctx) :
    (arc4Transform (arc4Transform d c).1 c).1 = d := by
  induction d generalizing c with
  | nil => rfl
  | cons b d ih => simp [arc4Transform, ih]

/-! The outcomes of the ARC4 commands when their checks pass, said once. -/

/-- R123: a legal key. -/
theorem exec_arc4Init_of_legal (s : State) (skip : Word) (key : List Byte) (h5 : 5 ≤ key.length)
    (h256 : key.length ≤ 256) :
    exec (.arc4Init 0 skip key) s = .next (s.answered (.arc4 (prgaNext^[skip.toNat] (arc4Fresh key))) .ok []) := by
  rw [← arc4Skip_eq_iterate]
  simp only [exec, execArc4Init, argZero_zero, arc4KeyLength_eq_none.mpr ⟨h5, h256⟩, guarded_none, guarded_nil]
  rfl

/-- R241: a key of any other length. -/
theorem exec_arc4Init_of_illegal (s : State) (skip : Word) (key : List Byte)
    (h : key.length < 5 ∨ 256 < key.length) :
    exec (.arc4Init 0 skip key) s = .next (s.failed .invalidKey) := by
  have hcheck : some .invalidKey = arc4KeyLength key.length := some_eq_arc4KeyLength.mpr ⟨h, rfl⟩
  simp only [exec, execArc4Init, argZero_zero, ← hcheck, guarded_none, guarded_some]
  rfl

/-- R124: the transform from a live context. -/
theorem exec_arc4Xfrm_of_live {s : State} {c : Arc4Ctx} (data : List Byte) (h : s.ctx = .arc4 c) :
    exec (.arc4Xfrm 0 0 data) s
      = .next (s.answered (.arc4 (prgaNext^[data.length] c)) .ok (arc4Transform data c).1) := by
  rw [← arc4Transform_ctx]
  simp only [exec, execArc4Xfrm, argZero_zero, operandZero_zero, guarded_none, guarded_nil, h, onArc4_arc4]
  rfl

/-- R125: the keystream from a live context. -/
theorem exec_arc4Ks_of_live {s : State} {c : Arc4Ctx} (len : BitVec 16) (h : s.ctx = .arc4 c) :
    exec (.arc4Ks 0 len 0) s
      = .next (s.answered (.arc4 (prgaNext^[len.toNat] c)) .ok (arc4Keystream len.toNat c).1) := by
  rw [← arc4Keystream_ctx]
  simp only [exec, execArc4Ks, argZero_zero, operandZero_zero, guarded_none, guarded_nil, h, onArc4_arc4]
  rfl

end Sys2Proof.Machine
end

section
/-! Proofs about the ARC4 algorithm and its commands (O27 to O32, O34 to O36). -/

namespace Sys2Proof.Machine

/-- Settles O27: the transposition of the two indices, by cases. -/
theorem swapIsATrueExchange : Obligations.SwapIsATrueExchange := rd_swap_eq_ite

/-- Settles O28: the arrays and indices are those of the loop before each round. -/
theorem keyScheduleFollowsTheLoop : Obligations.KeyScheduleFollowsTheLoop := by
  intro key _ _
  refine ⟨fun n => (ksaRounds key n).1, fun n => (ksaRounds key n).2, ?_, rfl, fun i hi => ?_, ksa_eq_ksaRounds key⟩
  · simp [ksaRounds_zero]
  · exact ⟨ksaRounds_succ_snd key hi, ksaStep_fst key (ksaRounds key i) _⟩

/-- Settles O29: the new array is the old one with the entries at the two new indices exchanged. -/
theorem generatorStepEquations : Obligations.GeneratorStepEquations := by
  intro c i j
  have hS : (prga c).2.S = swap c.S i j := prga_ctx_S c
  refine ⟨rfl, rfl, ?_, ?_, fun k hi hj => ?_, rfl⟩
  · rw [hS, rd_swap_left]
  · rw [hS, rd_swap_right]
  · rw [hS, rd_swap_of_ne c.S hi hj]

/-- Settles O30: the two outcomes of the length check. -/
theorem arc4InitSchedulesAndSkips : Obligations.Arc4InitSchedulesAndSkips :=
  fun s skip key => ⟨exec_arc4Init_of_legal s skip key, exec_arc4Init_of_illegal s skip key⟩

/-- Settles O31: the transform is the input with the keystream, byte by byte. -/
theorem arc4TransformXorsTheStream : Obligations.Arc4TransformXorsTheStream :=
  fun _ c data hctx =>
    ⟨_, arc4Transform_length data c, arc4Transform_getD data c, exec_arc4Xfrm_of_live data hctx⟩

/-- Settles O32: byte `k` of the keystream is that of the `k`-th step. -/
theorem arc4KeystreamIsTheStream : Obligations.Arc4KeystreamIsTheStream :=
  fun _ c len hctx =>
    ⟨_, arc4Keystream_length len.toNat c, arc4Keystream_getD len.toNat c, exec_arc4Ks_of_live len hctx⟩

/-- Settles O34: the second command starts from the context that the first one leaves. -/
theorem arc4InputMaySplitAnywhere : Obligations.Arc4InputMaySplitAnywhere := by
  intro s c d1 d2 hctx
  refine ⟨_, _, _, _, exec_arc4Xfrm_of_live d1 hctx, exec_arc4Xfrm_of_live d2 rfl, ?_⟩
  rw [exec_arc4Xfrm_of_live (d1 ++ d2) hctx, arc4Transform_append, arc4Transform_ctx d1 c, List.length_append,
    Nat.add_comm, Function.iterate_add_apply]

/-- Settles O35: the second transform makes as many steps as the first and undoes it. -/
theorem arc4DecryptsFromAnEqualContext : Obligations.Arc4DecryptsFromAnEqualContext := by
  intro s s' c data hctx hctx'
  refine ⟨_, _, exec_arc4Xfrm_of_live data hctx, ?_⟩
  rw [exec_arc4Xfrm_of_live _ hctx', arc4Transform_length, arc4Transform_arc4Transform]

/-- Settles O36: both ways make `n` generator steps from the key schedule; 32 bits hold every 16-bit count. -/
theorem arc4SkipDiscardsKeystream : Obligations.Arc4SkipDiscardsKeystream := by
  intro s n key h5 h256
  refine ⟨_, _, _, exec_arc4Init_of_legal s 0 key h5 h256, exec_arc4Ks_of_live n rfl, ?_⟩
  have hcount : (n.setWidth 32).toNat = n.toNat := BitVec.toNat_setWidth_of_le (by decide)
  rw [exec_arc4Init_of_legal s _ key h5 h256, hcount]
  rfl

end Sys2Proof.Machine
end

section
/-! SUPPORT. The Salsa20 operations that the statements of `41_salsa20.md` speak of: the block byte by byte (R145), the
counter as one 64-bit number (R146, R151), the key load from the payload's words (R147), and the transform byte by byte
(R149 to R151). -/

namespace Sys2Proof.Machine

/-- R145, byte by byte. -/
theorem salsaBlock_getD (c : SalsaCtx) (t : Fin 16) (k : Nat) (hk : k < 4) :
    (salsaBlock c).getD (4 * t.val + k) 0
      = byteOf ((doubleRound^[c.ROUNDS.toNat / 2] c.X)[t] + c.X[t]) k := by
  rw [salsaBlock, serLe_getD _ _ _ hk, doubleRounds_eq_iterate]
  simp [List.getD_eq_getElem?_getD]

/-! The counter. Adding 1 to a 64-bit number adds 1 to its low half, and to its high half when the low half wraps. -/

theorem toNat_append_words (hi lo : Word) : (hi ++ lo : BitVec (32 + 32)).toNat = hi.toNat * 2 ^ 32 + lo.toNat := by
  rw [BitVec.toNat_append, ← Nat.shiftLeft_add_eq_or_of_lt lo.isLt, Nat.shiftLeft_eq]

theorem append_add_one_low (hi lo : Word) : ((hi ++ lo : BitVec (32 + 32)) + 1).extractLsb' 0 32 = lo + 1 := by
  apply BitVec.eq_of_toNat_eq
  have := hi.isLt; have := lo.isLt
  simp only [BitVec.extractLsb'_toNat, BitVec.toNat_add, toNat_append_words, BitVec.ofNat_eq_ofNat,
    BitVec.toNat_ofNat, Nat.shiftRight_eq_div_pow]
  omega

theorem append_add_one_high (hi lo : Word) :
    ((hi ++ lo : BitVec (32 + 32)) + 1).extractLsb' 32 32 = if lo + 1 = 0 then hi + 1 else hi := by
  apply BitVec.eq_of_toNat_eq
  have := hi.isLt; have := lo.isLt
  simp only [apply_ite BitVec.toNat, BitVec.extractLsb'_toNat, BitVec.toNat_add, toNat_append_words,
    BitVec.toNat_eq, BitVec.ofNat_eq_ofNat, BitVec.toNat_ofNat, Nat.shiftRight_eq_div_pow]
  split <;> omega

/-- The block counter: `X[9]` above `X[8]` (R146). -/
def SalsaCtx.counter (c : SalsaCtx) : BitVec (32 + 32) := c.X[9] ++ c.X[8]

/-- The same context with its block counter at `n`. -/
def SalsaCtx.withCounter (c : SalsaCtx) (n : BitVec (32 + 32)) : SalsaCtx :=
  { c with X := (c.X.set 8 (n.extractLsb' 0 32)).set 9 (n.extractLsb' 32 32) }

@[simp] theorem SalsaCtx.counter_withCounter (c : SalsaCtx) (n : BitVec (32 + 32)) :
    (c.withCounter n).counter = n := by
  have h8 : (c.withCounter n).X[8] = n.extractLsb' 0 32 := by simp [SalsaCtx.withCounter]
  have h9 : (c.withCounter n).X[9] = n.extractLsb' 32 32 := by simp [SalsaCtx.withCounter]
  rw [SalsaCtx.counter, h8, h9, BitVec.extractLsb'_append_extractLsb']

@[simp] theorem SalsaCtx.withCounter_withCounter (c : SalsaCtx) (n m : BitVec (32 + 32)) :
    (c.withCounter n).withCounter m = c.withCounter m := by
  have h (x : Matrix) (a b a' b' : Word) : (((x.set 8 a).set 9 b).set 8 a').set 9 b' = (x.set 8 a').set 9 b' := by
    rw [Vector.set_comm b a' (by decide), Vector.set_set, Vector.set_set]
  simp only [SalsaCtx.withCounter, h]

@[simp] theorem SalsaCtx.withCounter_counter (c : SalsaCtx) : c.withCounter c.counter = c := by
  simp only [SalsaCtx.counter, SalsaCtx.withCounter, BitVec.extractLsb'_append_eq_left,
    BitVec.extractLsb'_append_eq_right, Vector.set_getElem_self]

/-- R146: the carry out of the low half is that of the 64-bit sum. -/
theorem salsaCount_eq_withCounter (c : SalsaCtx) : salsaCount c = c.withCounter (c.counter + 1) := by
  rw [SalsaCtx.withCounter, SalsaCtx.counter, append_add_one_low, append_add_one_high, salsaCount]
  split
  · simp
  · have h9 : (c.X.set 8 (c.X[8] + 1))[9] = c.X[9] := by simp
    rw [← h9, Vector.set_getElem_self]

/-- R151: `n` counter steps add `n` to the 64-bit counter. -/
theorem salsaCount_iterate_eq_withCounter (c : SalsaCtx) (n : Nat) :
    salsaCount^[n] c = c.withCounter (c.counter + BitVec.ofNat _ n) := by
  induction n with
  | zero => rw [BitVec.add_zero, SalsaCtx.withCounter_counter, Function.iterate_zero_apply]
  | succ n ih =>
    rw [Function.iterate_succ_apply', ih, salsaCount_eq_withCounter, SalsaCtx.counter_withCounter,
      SalsaCtx.withCounter_withCounter, BitVec.add_assoc, BitVec.ofNat_add]
    rfl

theorem extractLsb'_ofNat_low (b : Nat) : (BitVec.ofNat (32 + 32) b).extractLsb' 0 32 = BitVec.ofNat 32 b := by
  apply BitVec.eq_of_toNat_eq
  simp only [BitVec.extractLsb'_toNat, BitVec.toNat_ofNat, Nat.shiftRight_eq_div_pow]
  omega

theorem extractLsb'_ofNat_high (b : Nat) :
    (BitVec.ofNat (32 + 32) b).extractLsb' 32 32 = BitVec.ofNat 32 (b / 2 ^ 32) := by
  apply BitVec.eq_of_toNat_eq
  simp only [BitVec.extractLsb'_toNat, BitVec.toNat_ofNat, Nat.shiftRight_eq_div_pow]
  omega

/-! The key load in words of the payload (R147). -/

/-- The word whose four bytes stand in `p` from byte `k` on. -/
def wordAt (p : List Byte) (k : Nat) : Word :=
  le32 (p.getD k 0) (p.getD (k + 1) 0) (p.getD (k + 2) 0) (p.getD (k + 3) 0)

theorem wordsLe_take_getD {p : List Byte} {n : Nat} (hp : n ≤ p.length) (t : Nat) (ht : 4 * t + 4 ≤ n) :
    (wordsLe (p.take n)).getD t 0 = wordAt p (4 * t) := by
  have hbyte (j : Nat) (hj : j < n) : (p.take n).getD j 0 = p.getD j 0 := by
    simp [List.getD_eq_getElem?_getD, List.getElem?_take_of_lt hj]
  rw [wordsLe_getD _ t (by simp; omega), hbyte _ (by omega), hbyte _ (by omega), hbyte _ (by omega),
    hbyte _ (by omega), wordAt]

theorem wordAt_drop (p : List Byte) (a k : Nat) : wordAt (p.drop a) k = wordAt p (a + k) := by
  simp [wordAt, List.getD_eq_getElem?_getD, Nat.add_assoc]

theorem wordsLe_take_drop_getD {p : List Byte} {a n : Nat} (hp : a + n ≤ p.length) (t : Nat) (ht : 4 * t + 4 ≤ n) :
    (wordsLe ((p.drop a).take n)).getD t 0 = wordAt p (a + 4 * t) := by
  rw [wordsLe_take_getD (by simp; omega) t ht, wordAt_drop]

/-- The key load of a 16-byte key (R140, R147). -/
theorem salsaLoad_of_length_24 {p : List Byte} (h : p.length = 24) :
    salsaLoad p = #v[0x61707865, wordAt p 0, wordAt p 4, wordAt p 8, wordAt p 12, 0x3120646E, wordAt p 16, wordAt p 20,
      0, 0, 0x79622D36, wordAt p 0, wordAt p 4, wordAt p 8, wordAt p 12, 0x6B206574] := by
  have hkey := wordsLe_take_getD (p := p) (n := 16) (by omega)
  have hnonce := wordsLe_take_drop_getD (p := p) (a := 16) (n := 8) (by omega)
  simp (disch := decide) only [salsaLoad, salsaConstants, Config.salsaNonceLen, h, hkey, hnonce, Nat.reduceSub,
    Nat.reduceEqDiff, if_false, Nat.reduceMul, Nat.reduceAdd]

/-- The key load of a 32-byte key (R140, R147). -/
theorem salsaLoad_of_length_40 {p : List Byte} (h : p.length = 40) :
    salsaLoad p = #v[0x61707865, wordAt p 0, wordAt p 4, wordAt p 8, wordAt p 12, 0x3320646E, wordAt p 32, wordAt p 36,
      0, 0, 0x79622D32, wordAt p 16, wordAt p 20, wordAt p 24, wordAt p 28, 0x6B206574] := by
  have hkey := wordsLe_take_getD (p := p) (n := 16) (by omega)
  have hhalf := wordsLe_take_drop_getD (p := p) (a := 16) (n := 16) (by omega)
  have hnonce := wordsLe_take_drop_getD (p := p) (a := 32) (n := 8) (by omega)
  simp (disch := decide) only [salsaLoad, salsaConstants, Config.salsaNonceLen, h, hkey, hhalf, hnonce, Nat.reduceSub,
    if_true, Nat.reduceMul, Nat.reduceAdd]

/-! The transform. -/

/-- R149, R150: byte `k` lies in block `k / 64`, which is made after as many counter steps. -/
theorem salsaBlocks_getD (n : Nat) (d : List Byte) (c : SalsaCtx) (k : Nat) (hk : k < d.length) (hn : k < 64 * n) :
    (salsaBlocks n d c).1.getD k 0
      = d.getD k 0 ^^^ (salsaBlock (salsaCount^[k / 64] c)).getD (k % 64) 0 := by
  induction n generalizing d c k with
  | zero => omega
  | succ n ih =>
    rw [salsaBlocks, Config.salsaBlock]
    by_cases h : k < 64
    · have htake : (d.take 64).getD k 0 = d.getD k 0 := by
        simp [List.getD_eq_getElem?_getD, List.getElem?_take_of_lt h]
      rw [List.getD_append _ _ _ _ (by simp; omega), xorBytes_getD _ _ _ (by simp; omega) (by simpa using h),
        htake, Nat.div_eq_of_lt h, Nat.mod_eq_of_lt h, Function.iterate_zero_apply]
    · obtain ⟨j, rfl⟩ := Nat.exists_eq_add_of_le (Nat.le_of_not_lt h)
      have hlen : (xorBytes (d.take 64) (salsaBlock c)).length = 64 := by simp; omega
      have hdrop : (d.drop 64).getD j 0 = d.getD (64 + j) 0 := by simp [List.getD_eq_getElem?_getD]
      rw [List.getD_append_right _ _ _ _ (by omega), hlen, Nat.add_sub_cancel_left,
        ih _ _ _ (by simp; omega) (by omega), hdrop, Nat.add_mod_left, Nat.add_div_left _ (by decide),
        Function.iterate_succ_apply]

theorem salsaTransform_getD (d : List Byte) (c : SalsaCtx) (k : Nat) (hk : k < d.length) :
    (salsaTransform d c).1.getD k 0
      = d.getD k 0 ^^^ (salsaBlock (salsaCount^[k / 64] c)).getD (k % 64) 0 :=
  salsaBlocks_getD _ d c k hk (by simp only [Config.salsaBlock]; omega)

/-- A byte XORed twice with one block byte is the byte again (R151). -/
theorem salsaTransform_salsaTransform (d : List Byte) (c : SalsaCtx) :
    (salsaTransform (salsaTransform d c).1 c).1 = d := by
  apply List.ext_getElem (by simp)
  intro k _ hk
  have hbyte : (salsaTransform (salsaTransform d c).1 c).1.getD k 0 = d.getD k 0 := by
    rw [salsaTransform_getD _ c k (by simpa using hk), salsaTransform_getD d c k hk, BitVec.xor_assoc,
      BitVec.xor_self, BitVec.xor_zero]
  simpa [List.getD_eq_getElem, hk] using hbyte

/-- Whole blocks first, then the rest from the context they leave (R150). -/
theorem salsaTransform_append (d1 d2 : List Byte) (c : SalsaCtx) (h : d1.length % 64 = 0) :
    salsaTransform (d1 ++ d2) c
      = ((salsaTransform d1 c).1 ++ (salsaTransform d2 (salsaTransform d1 c).2).1,
         (salsaTransform d2 (salsaTransform d1 c).2).2) := by
  have hblocks : ((d1 ++ d2).length + 63) / Config.salsaBlock
      = (d1.length + 63) / Config.salsaBlock + (d2.length + 63) / Config.salsaBlock := by
    simp only [List.length_append, Config.salsaBlock]
    omega
  rw [salsaTransform, hblocks]
  exact salsaBlocks_append _ _ d1 d2 c (by simp only [Config.salsaBlock]; omega)

/-! The outcomes of the Salsa20 commands, said once. -/

/-- R148: a legal length and a legal round count. -/
theorem exec_salsaInit_of_legal (s : State) {rounds : Byte} {p : List Byte}
    (hrounds : rounds = 8 ∨ rounds = 12 ∨ rounds = 20) (hlen : p.length = 24 ∨ p.length = 40) :
    exec (.salsaInit rounds 0 p) s
      = .next (s.answered (.salsa20 { X := salsaLoad p, ROUNDS := rounds.setWidth 5 }) .ok []) := by
  simp only [exec, execSalsaInit, operandZero_zero, salsaKeyLength_eq_none.mpr hlen,
    salsaRoundCount_eq_none.mpr hrounds, guarded_none, guarded_nil]
  rfl

/-- R148, R241: an illegal length, whatever the round count. -/
theorem exec_salsaInit_of_illegal_length (s : State) (rounds : Byte) {p : List Byte} (h24 : p.length ≠ 24)
    (h40 : p.length ≠ 40) : exec (.salsaInit rounds 0 p) s = .next (s.failed .invalidKey) := by
  have hcheck : some .invalidKey = salsaKeyLength p.length := some_eq_salsaKeyLength.mpr ⟨⟨h24, h40⟩, rfl⟩
  simp only [exec, execSalsaInit, operandZero_zero, ← hcheck, guarded_none, guarded_some]
  rfl

/-- R148, R242: a legal length and an illegal round count. -/
theorem exec_salsaInit_of_illegal_rounds (s : State) {rounds : Byte} {p : List Byte}
    (hlen : p.length = 24 ∨ p.length = 40) (h8 : rounds ≠ 8) (h12 : rounds ≠ 12) (h20 : rounds ≠ 20) :
    exec (.salsaInit rounds 0 p) s = .next (s.failed .invalidParameter) := by
  have hcheck : some .invalidParameter = salsaRoundCount rounds :=
    some_eq_salsaRoundCount.mpr ⟨⟨h8, h12, h20⟩, rfl⟩
  simp only [exec, execSalsaInit, operandZero_zero, salsaKeyLength_eq_none.mpr hlen, ← hcheck, guarded_none,
    guarded_some]
  rfl

/-- R149: the transform from a live context. -/
theorem exec_salsaXfrm_of_live {s : State} {c : SalsaCtx} (data : List Byte) (h : s.ctx = .salsa20 c) :
    exec (.salsaXfrm 0 0 data) s
      = .next (s.answered (.salsa20 (salsaTransform data c).2) .ok (salsaTransform data c).1) := by
  simp only [exec, execSalsaXfrm, argZero_zero, operandZero_zero, guarded_none, guarded_nil, h, onSalsa_salsa20]
  rfl

end Sys2Proof.Machine
end

section
/-! Proofs about the Salsa20 algorithm and its commands (O38 to O43, O45, O46). -/

namespace Sys2Proof.Machine

/-- Settles O38: the block is the serialised sum of the mixed matrix and the input. -/
theorem salsaBlockFeedsForward : Obligations.SalsaBlockFeedsForward :=
  fun c => ⟨salsaBlock_length c, salsaBlock_getD c⟩

/-- Settles O39: the step sets the counter to its successor and no other word. -/
theorem salsaCounterIsSixtyFourBits : Obligations.SalsaCounterIsSixtyFourBits := by
  intro c
  have hcounter : (salsaCount c).counter = c.counter + 1 := by
    rw [salsaCount_eq_withCounter, SalsaCtx.counter_withCounter]
  obtain ⟨hrounds, hwords⟩ := salsaCount_sameKey c
  exact ⟨hcounter, hwords, hrounds⟩

/-- Settles O40: the checks pass, and the matrix is that of the key's length. -/
theorem salsaInitLoadsTheMatrix : Obligations.SalsaInitLoadsTheMatrix := by
  intro s rounds p hrounds hlen
  rw [exec_salsaInit_of_legal s hrounds hlen]
  rcases hlen with h | h
  · rw [salsaLoad_of_length_24 h, h]
    rfl
  · rw [salsaLoad_of_length_40 h, h]
    rfl

/-- Settles O41: the length check comes before the check of the round count. -/
theorem salsaInitRefusals : Obligations.SalsaInitRefusals :=
  fun s rounds _ => ⟨exec_salsaInit_of_illegal_length s rounds, exec_salsaInit_of_illegal_rounds s⟩

/-- Settles O42: the transform byte by byte, and the context after its blocks. -/
theorem salsaTransformXorsTheBlocks : Obligations.SalsaTransformXorsTheBlocks := by
  intro s c data hctx
  refine ⟨_, salsaTransform_length data c, salsaTransform_getD data c, ?_⟩
  rw [exec_salsaXfrm_of_live data hctx, salsaTransform_ctx]

/-- Settles O43: `b` steps from 0 set the 64-bit counter to `b`, whose halves are the two words. -/
theorem salsaBlockNumberIsTheCounter : Obligations.SalsaBlockNumberIsTheCounter := by
  intro c b h8 h9
  have hzero : c.counter = 0 := by
    rw [SalsaCtx.counter, h8, h9]
    rfl
  rw [salsaCount_iterate_eq_withCounter, hzero, zero_add, SalsaCtx.withCounter,
    extractLsb'_ofNat_low, extractLsb'_ofNat_high]

/-- Settles O45: the second command starts from the context that the whole blocks leave. -/
theorem salsaInputMaySplitAtBlocks : Obligations.SalsaInputMaySplitAtBlocks := by
  intro s c d1 d2 hctx hlen
  refine ⟨_, _, _, _, exec_salsaXfrm_of_live d1 hctx, exec_salsaXfrm_of_live d2 rfl, ?_⟩
  rw [exec_salsaXfrm_of_live (d1 ++ d2) hctx, salsaTransform_append d1 d2 c hlen]

/-- Settles O46: the second transform uses the same blocks as the first and undoes it. -/
theorem salsaDecryptsFromAnEqualContext : Obligations.SalsaDecryptsFromAnEqualContext := by
  intro s s' c data hctx hctx'
  refine ⟨_, _, exec_salsaXfrm_of_live data hctx, ?_⟩
  rw [exec_salsaXfrm_of_live _ hctx', salsaTransform_salsaTransform, salsaTransform_ctx, salsaTransform_ctx,
    salsaTransform_length]

end Sys2Proof.Machine
end

section
/-! SUPPORT. The XXTEA operations that the statements of `42_xxtea.md` speak of: the running sum (R172), the loops word
by word and round by round (R173, R174), that a word, a round and a pass of one direction undo those of the other
(R178), and the outcomes of the commands (R175 to R177). -/

namespace Sys2Proof.Machine

/-- The key word of R171 by its index as a number. -/
theorem xxteaKeyWord_eq_getD (K : Vector Word 4) (p : Nat) (e : BitVec 2) :
    K[(BitVec.ofNat 2 p ^^^ e).toNat]'(BitVec.ofNat 2 p ^^^ e).isLt = K.toList.getD ((p % 4) ^^^ e.toNat) 0 := by
  have hindex : (BitVec.ofNat 2 p ^^^ e).toNat = (p % 4) ^^^ e.toNat := by simp
  have hlt : (p % 4) ^^^ e.toNat < 4 := hindex ▸ (BitVec.ofNat 2 p ^^^ e).isLt
  simp [List.getD_eq_getElem?_getD, hlt]

/-! The running sum. -/

/-- `n * DELTA`: the running sum of round `n` of an encryption, counted from 1 (R172, R173). -/
def xxteaSum (n : Nat) : Word := BitVec.ofNat 32 n * Config.xxteaDelta

theorem xxteaSum_zero : xxteaSum 0 = 0 := rfl

theorem xxteaSum_add (m n : Nat) : xxteaSum (m + n) = xxteaSum m + xxteaSum n := by
  rw [xxteaSum, BitVec.ofNat_add, BitVec.add_mul]
  rfl

theorem xxteaSum_succ (n : Nat) : xxteaSum (n + 1) = xxteaSum n + Config.xxteaDelta := xxteaSum_add n 1

theorem xxteaSum_sub {m n : Nat} (h : n ≤ m) : xxteaSum m - xxteaSum n = xxteaSum (m - n) := by
  conv_lhs => rw [← Nat.sub_add_cancel h, xxteaSum_add, BitVec.add_sub_cancel]

/-! The rounds, the last one apart. -/

section
variable (K : Vector Word 4)

theorem encRounds_succ (q : Nat) (sum : Word) (v : List Word) :
    encRounds K (q + 1) sum v = encRound K (sum + xxteaSum (q + 1)) (encRounds K q sum v) := by
  induction q generalizing sum v with
  | zero => rfl
  | succ q ih =>
    rw [encRounds, ih, xxteaSum_succ (q + 1), BitVec.add_assoc, BitVec.add_comm Config.xxteaDelta, encRounds]

/-- The rounds of an encryption, the last one apart (R173). -/
theorem encRounds_zero_succ (q : Nat) (v : List Word) :
    encRounds K (q + 1) 0 v = encRound K (xxteaSum (q + 1)) (encRounds K q 0 v) := by
  rw [encRounds_succ, zero_add]

theorem decRounds_succ (q : Nat) (sum : Word) (v : List Word) :
    decRounds K (q + 1) sum v = decRound K (sum - xxteaSum q) (decRounds K q sum v) := by
  induction q generalizing sum v with
  | zero => rw [xxteaSum_zero, sub_zero]; rfl
  | succ q ih =>
    have hsum : sum - Config.xxteaDelta - xxteaSum q = sum - xxteaSum (q + 1) := by
      rw [sub_sub, xxteaSum_succ, BitVec.add_comm]
    rw [decRounds, ih, hsum, decRounds]

/-- The rounds of a decryption from the sum `(q + 1) * DELTA`, the first one apart. -/
theorem decRounds_xxteaSum_succ (q : Nat) (v : List Word) :
    decRounds K (q + 1) (xxteaSum (q + 1)) v = decRounds K q (xxteaSum q) (decRound K (xxteaSum (q + 1)) v) := by
  rw [decRounds, xxteaSum_succ, BitVec.add_sub_cancel]

end

/-! A loop of rounds that each change the words at the indices of one list, word by word. -/

section
variable (word : Nat → List Word → Nat → List Word) (order : List Nat) (v : List Word)

/-- The block after `r` rounds, round `i` changing one word after the other by `word i`. -/
def blockAfter : Nat → List Word
  | 0 => v
  | r + 1 => order.foldl (word r) (blockAfter r)

/-- The block in round `r`, after the first `k` indices of that round. -/
def blockWithin (r k : Nat) : List Word := (order.take k).foldl (word r) (blockAfter word order v r)

theorem blockWithin_zero (r : Nat) : blockWithin word order v r 0 = blockAfter word order v r := rfl

theorem blockWithin_succ (r : Nat) {k p : Nat} (h : order[k]? = some p) :
    blockWithin word order v r (k + 1) = word r (blockWithin word order v r k) p := by
  simp [blockWithin, List.take_add_one, h]

/-- The block before a round is the one after all indices of the round before it. -/
theorem blockWithin_succ_zero {n : Nat} (h : order.length = n) (r : Nat) :
    blockWithin word order v (r + 1) 0 = blockWithin word order v r n := by
  subst h
  rw [blockWithin_zero, blockWithin, List.take_length, blockAfter]

variable {word v} {n : Nat}

theorem length_blockAfter (hword : ∀ r w p, (word r w p).length = w.length) (hv : v.length = n) (r : Nat) :
    (blockAfter word order v r).length = n := by
  induction r with
  | zero => exact hv
  | succ r ih => exact foldl_keeps (·.length = n) (word r) (fun w p h => (hword r w p).trans h) order _ ih

theorem length_blockWithin (hword : ∀ r w p, (word r w p).length = w.length) (hv : v.length = n) (r k : Nat) :
    (blockWithin word order v r k).length = n :=
  foldl_keeps (·.length = n) (word r) (fun w p h => (hword r w p).trans h) _ _ (length_blockAfter order hword hv r)

end

/-! The two directions as such loops. -/

section
variable (K : Vector Word 4)

/-- The change of one word in round `r` of an encryption (R173). -/
def encStep (r : Nat) (w : List Word) (p : Nat) : List Word := encWord K (xxteaSum (r + 1)) w p

/-- The change of one word in round `r` of a decryption of `q` rounds (R174). -/
def decStep (q r : Nat) (w : List Word) (p : Nat) : List Word := decWord K (xxteaSum q - xxteaSum r) w p

theorem encStep_eq (r : Nat) {w : List Word} {n : Nat} (hw : w.length = n) (p : Nat) :
    encStep K r w p = w.set p (w.getD p 0 + mx (w.getD ((p + 1) % n) 0) (w.getD ((p + n - 1) % n) 0)
      (xxteaSum (r + 1)) p (xxteaE (xxteaSum (r + 1))) K) := by
  rw [encStep, encWord, mxAt, hw]

theorem decStep_eq {q r : Nat} (hr : r ≤ q) {w : List Word} {n : Nat} (hw : w.length = n) (p : Nat) :
    decStep K q r w p = w.set p (w.getD p 0 - mx (w.getD ((p + 1) % n) 0) (w.getD ((p + n - 1) % n) 0)
      (xxteaSum (q - r)) p (xxteaE (xxteaSum (q - r))) K) := by
  rw [decStep, decWord, mxAt, hw, xxteaSum_sub hr]

theorem encStep_length (r : Nat) (w : List Word) (p : Nat) : (encStep K r w p).length = w.length :=
  encWord_length K _ w p

theorem decStep_length (q r : Nat) (w : List Word) (p : Nat) : (decStep K q r w p).length = w.length :=
  decWord_length K _ w p

theorem encRounds_eq_blockAfter (q : Nat) (v : List Word) :
    encRounds K q 0 v = blockAfter (encStep K) (List.range v.length) v q := by
  induction q with
  | zero => rfl
  | succ q ih =>
    rw [encRounds_zero_succ, encRound, encRounds_length, ih]
    rfl

theorem decRounds_eq_blockAfter (q m : Nat) (v : List Word) :
    decRounds K m (xxteaSum q) v = blockAfter (decStep K q) (List.range v.length).reverse v m := by
  induction m with
  | zero => rfl
  | succ m ih =>
    rw [decRounds_succ, decRound, decRounds_length, ih]
    rfl

theorem xxteaEncrypt_eq_blockAfter {v : List Word} {n : Nat} (hv : v.length = n) (hn : 2 ≤ n) :
    xxteaEncrypt K v = blockAfter (encStep K) (List.range n) v (6 + 52 / n) := by
  subst hv
  rw [xxteaEncrypt, if_pos hn, encRounds_eq_blockAfter, xxteaRounds]

theorem xxteaDecrypt_eq_blockAfter {v : List Word} {n : Nat} (hv : v.length = n) (hn : 2 ≤ n) :
    xxteaDecrypt K v = blockAfter (decStep K (6 + 52 / n)) (List.range n).reverse v (6 + 52 / n) := by
  subst hv
  rw [xxteaDecrypt, if_pos hn]
  exact decRounds_eq_blockAfter K _ _ v

/-! Each direction undoes the other. -/

/-- In a block of at least two words the `MX` value at an index is the same before and after the word there is changed
(R178). -/
theorem decWord_encWord (sum : Word) {v : List Word} {p : Nat} (hn : 2 ≤ v.length) (hp : p < v.length) :
    decWord K sum (encWord K sum v p) p = v := by
  rw [decWord, encWord, mxAt_set K sum v p _ hn hp]
  simp [List.getD_eq_getElem?_getD, hp]

theorem encWord_decWord (sum : Word) {v : List Word} {p : Nat} (hn : 2 ≤ v.length) (hp : p < v.length) :
    encWord K sum (decWord K sum v p) p = v := by
  rw [encWord, decWord, mxAt_set K sum v p _ hn hp]
  simp [List.getD_eq_getElem?_getD, hp]

/-- Steps undone one by one in the opposite order. -/
theorem foldl_reverse_foldl {σ ι : Type} (P : σ → Prop) (f g : σ → ι → σ) (hP : ∀ s i, P s → P (f s i)) (l : List ι)
    (hundo : ∀ s, P s → ∀ i ∈ l, g (f s i) i = s) (s : σ) (hs : P s) : l.reverse.foldl g (l.foldl f s) = s := by
  induction l generalizing s with
  | nil => rfl
  | cons i l ih =>
    have hrest := ih (fun s hs j hj => hundo s hs j (List.mem_cons_of_mem i hj)) (f s i) (hP s i hs)
    rw [List.foldl_cons, List.reverse_cons, List.foldl_append, hrest]
    exact hundo s hs i List.mem_cons_self

theorem decRound_encRound (sum : Word) {v : List Word} (hn : 2 ≤ v.length) :
    decRound K sum (encRound K sum v) = v := by
  rw [decRound, encRound_length]
  refine foldl_reverse_foldl (·.length = v.length) (encWord K sum) _ (fun w p h => by simp [h]) _ ?_ v rfl
  intro w hw p hp
  exact decWord_encWord K sum (hw ▸ hn) (hw ▸ List.mem_range.mp hp)

theorem encRound_decRound (sum : Word) {v : List Word} (hn : 2 ≤ v.length) :
    encRound K sum (decRound K sum v) = v := by
  rw [encRound, decRound_length, ← List.reverse_reverse (List.range v.length)]
  refine foldl_reverse_foldl (·.length = v.length) (decWord K sum) _ (fun w p h => by simp [h]) _ ?_ v rfl
  intro w hw p hp
  exact encWord_decWord K sum (hw ▸ hn) (hw ▸ List.mem_range.mp (List.mem_reverse.mp hp))

theorem decRounds_encRounds (q : Nat) {v : List Word} (hn : 2 ≤ v.length) :
    decRounds K q (xxteaSum q) (encRounds K q 0 v) = v := by
  induction q with
  | zero => rfl
  | succ q ih =>
    rw [encRounds_zero_succ, decRounds_xxteaSum_succ, decRound_encRound K _ (by simpa using hn), ih]

theorem encRounds_decRounds (q : Nat) {v : List Word} (hn : 2 ≤ v.length) :
    encRounds K q 0 (decRounds K q (xxteaSum q) v) = v := by
  induction q generalizing v with
  | zero => rfl
  | succ q ih =>
    rw [encRounds_zero_succ, decRounds_xxteaSum_succ, ih (by simpa using hn), encRound_decRound K _ hn]

theorem xxteaEncrypt_of_short {v : List Word} (h : v.length < 2) : xxteaEncrypt K v = v := if_neg (by omega)

theorem xxteaDecrypt_of_short {v : List Word} (h : v.length < 2) : xxteaDecrypt K v = v := if_neg (by omega)

theorem xxteaDecrypt_xxteaEncrypt (v : List Word) : xxteaDecrypt K (xxteaEncrypt K v) = v := by
  rcases Nat.lt_or_ge v.length 2 with hshort | hn
  · rw [xxteaEncrypt_of_short K hshort, xxteaDecrypt_of_short K hshort]
  · rw [xxteaDecrypt, xxteaEncrypt_length, if_pos hn, xxteaEncrypt, if_pos hn]
    exact decRounds_encRounds K _ hn

theorem xxteaEncrypt_xxteaDecrypt (v : List Word) : xxteaEncrypt K (xxteaDecrypt K v) = v := by
  rcases Nat.lt_or_ge v.length 2 with hshort | hn
  · rw [xxteaDecrypt_of_short K hshort, xxteaEncrypt_of_short K hshort]
  · rw [xxteaEncrypt, xxteaDecrypt_length, if_pos hn, xxteaDecrypt, if_pos hn]
    exact encRounds_decRounds K _ hn

end

/-- The key load in words of the payload (R175). -/
theorem xxteaLoad_of_length_16 {key : List Byte} (h : key.length = 16) :
    xxteaLoad key = #v[wordAt key 0, wordAt key 4, wordAt key 8, wordAt key 12] := by
  have hword (t : Nat) (ht : 4 * t + 4 ≤ 16) : (wordsLe key).getD t 0 = wordAt key (4 * t) :=
    wordsLe_getD key t (h ▸ ht)
  simp (disch := decide) only [xxteaLoad, hword, Nat.reduceMul]

/-! The outcomes of the XXTEA commands, said once. -/

/-- R175: a legal key. -/
theorem exec_xxteaInit_of_legal (s : State) {key : List Byte} (h : key.length = 16) :
    exec (.xxteaInit 0 0 key) s = .next (s.answered (.xxtea { K := xxteaLoad key }) .ok []) := by
  simp only [exec, execXxteaInit, argZero_zero, operandZero_zero, xxteaKeyLength_eq_none.mpr h, guarded_none,
    guarded_nil]
  rfl

/-- R175, R241: a key of any other length. -/
theorem exec_xxteaInit_of_illegal (s : State) {key : List Byte} (h : key.length ≠ 16) :
    exec (.xxteaInit 0 0 key) s = .next (s.failed .invalidKey) := by
  have hcheck : some .invalidKey = xxteaKeyLength key.length := some_eq_xxteaKeyLength.mpr ⟨h, rfl⟩
  simp only [exec, execXxteaInit, argZero_zero, operandZero_zero, ← hcheck, guarded_none, guarded_some]
  rfl

/-- R176: whole words from a live context. -/
theorem exec_xxteaEnc_of_live {s : State} {a : XxteaCtx} {data : List Byte} (h : s.ctx = .xxtea a)
    (hlen : data.length % 4 = 0) :
    exec (.xxteaEnc 0 0 data) s
      = .next (s.answered s.ctx .ok (serLe (xxteaEncrypt a.K (wordsLe data)))) := by
  simp only [exec, execXxteaEnc, argZero_zero, operandZero_zero, wholeWords_eq_none.mpr hlen, guarded_none,
    guarded_nil, h, onXxtea_xxtea]
  rfl

/-- R177: whole words from a live context. -/
theorem exec_xxteaDec_of_live {s : State} {a : XxteaCtx} {data : List Byte} (h : s.ctx = .xxtea a)
    (hlen : data.length % 4 = 0) :
    exec (.xxteaDec 0 0 data) s
      = .next (s.answered s.ctx .ok (serLe (xxteaDecrypt a.K (wordsLe data)))) := by
  simp only [exec, execXxteaDec, argZero_zero, operandZero_zero, wholeWords_eq_none.mpr hlen, guarded_none,
    guarded_nil, h, onXxtea_xxtea]
  rfl

end Sys2Proof.Machine
end

section
/-! Proofs about the XXTEA algorithm and its commands (O47 to O51). -/

namespace Sys2Proof.Machine

/-- Settles O47: the two outcomes of the length check, and the key load word by word. -/
theorem xxteaInitLoadsTheKey : Obligations.XxteaInitLoadsTheKey := by
  intro s key w
  refine ⟨fun hlen => ?_, exec_xxteaInit_of_illegal s⟩
  rw [exec_xxteaInit_of_legal s hlen, xxteaLoad_of_length_16 hlen]
  rfl

/-- Settles O48: the blocks are those of the loop over the indices in order. -/
theorem xxteaEncryptFollowsTheLoop : Obligations.XxteaEncryptFollowsTheLoop := by
  refine ⟨fun y z sum p e K => ?_, fun s a data n hctx hlen hn => ?_⟩
  · rw [mx, xxteaKeyWord_eq_getD]
  have hv : (wordsLe data).length = n := by rw [wordsLe_length]; omega
  refine ⟨blockWithin (encStep a.K) (List.range n) (wordsLe data), rfl, fun r p _ hp => ?_,
    fun r _ => blockWithin_succ_zero _ _ _ List.length_range r, ?_⟩
  · have hw := length_blockWithin (List.range n) (encStep_length a.K) hv r p
    rw [blockWithin_succ _ _ _ r (List.getElem?_range hp), encStep_eq a.K r hw]
    rfl
  · rw [exec_xxteaEnc_of_live hctx (by omega), xxteaEncrypt_eq_blockAfter a.K hv hn, blockWithin_zero]

/-- Settles O49: the blocks are those of the loop over the indices in reverse order. -/
theorem xxteaDecryptFollowsTheLoop : Obligations.XxteaDecryptFollowsTheLoop := by
  intro s a data n hctx hlen hn
  have hv : (wordsLe data).length = n := by rw [wordsLe_length]; omega
  refine ⟨blockWithin (decStep a.K (6 + 52 / n)) (List.range n).reverse (wordsLe data), rfl, fun r k hr hk => ?_,
    fun r _ => blockWithin_succ_zero _ _ _ (by simp) r, ?_⟩
  · have hw := length_blockWithin (List.range n).reverse (decStep_length a.K (6 + 52 / n)) hv r k
    have hindex : (List.range n).reverse[k]? = some (n - 1 - k) := by
      rw [List.getElem?_reverse (by simpa using hk), List.length_range, List.getElem?_range (by omega)]
    rw [blockWithin_succ _ _ _ r hindex, decStep_eq a.K (Nat.le_of_lt hr) hw]
    rfl
  · rw [exec_xxteaDec_of_live hctx (by omega), xxteaDecrypt_eq_blockAfter a.K hv hn, blockWithin_zero]

/-- Settles O50: a block of at most one word takes part in no round. -/
theorem xxteaPassesShortBlocksThrough : Obligations.XxteaPassesShortBlocksThrough := by
  intro s a data hctx hlen
  have hwhole : data.length % 4 = 0 := by omega
  have hshort : (wordsLe data).length < 2 := by rw [wordsLe_length]; omega
  rw [exec_xxteaEnc_of_live hctx hwhole, exec_xxteaDec_of_live hctx hwhole, xxteaEncrypt_of_short a.K hshort,
    xxteaDecrypt_of_short a.K hshort, serLe_wordsLe data hwhole]
  exact ⟨rfl, rfl⟩

/-- Settles O51: the words of the first output are the words that the other direction restores. -/
theorem xxteaDirectionsUndoEachOther : Obligations.XxteaDirectionsUndoEachOther := by
  intro s s' a data hctx hctx' hlen
  have hbytes : 4 * (wordsLe data).length = data.length := by rw [wordsLe_length]; omega
  refine ⟨⟨_, ?_, exec_xxteaEnc_of_live hctx hlen, ?_⟩, ⟨_, ?_, exec_xxteaDec_of_live hctx hlen, ?_⟩⟩
  · simpa using hbytes
  · rw [exec_xxteaDec_of_live hctx' (by simp), wordsLe_serLe, xxteaDecrypt_xxteaEncrypt, serLe_wordsLe data hlen]
  · simpa using hbytes
  · rw [exec_xxteaEnc_of_live hctx' (by simp), wordsLe_serLe, xxteaEncrypt_xxteaDecrypt, serLe_wordsLe data hlen]

end Sys2Proof.Machine
end

section
/-! SUPPORT. The ISAAC operations that the statements of `43_isaac.md` speak of: the memory fill group by group (R193),
the seed's words (R192), the generator index by index (R194), the draw and the delivery by cases (R195, R196), and the
outcomes of the commands (R197, R198). -/

namespace Sys2Proof.Machine

/-! The memory fill. -/

/-- A loop over the 32 groups ends in the last of the states it passes through (R193). -/
theorem foldl_groupStarts {σ : Type} (f : σ → Byte → σ) (t : Nat → σ)
    (h : ∀ g, g < 32 → t (g + 1) = f (t g) (BitVec.ofNat 8 (8 * g))) : groupStarts.foldl f (t 0) = t 32 := by
  have hfirst (n : Nat) (hn : n ≤ 32) :
      ((List.range n).map fun k => BitVec.ofNat 8 (8 * k)).foldl f (t 0) = t n := by
    induction n with
    | zero => rfl
    | succ n ih => simp [List.range_succ, ih (by omega), h n hn]
  exact hfirst 32 (Nat.le_refl 32)

/-- The eight variables and the memory before each of the 64 groups, 32 of each pass (R193). -/
def isaacFillState (seed : Vector Word 256) : Nat → Mixers × Vector Word 256
  | 0 => (goldenMixers, fill256 fun _ => 0)
  | n + 1 =>
    if n < 32 then firstPassStep seed (isaacFillState seed n) (BitVec.ofNat 8 (8 * n))
    else secondPassStep (isaacFillState seed n) (BitVec.ofNat 8 (8 * (n - 32)))

theorem isaacFillState_firstPass (seed : Vector Word 256) {g : Nat} (hg : g < 32) :
    isaacFillState seed (g + 1) = firstPassStep seed (isaacFillState seed g) (BitVec.ofNat 8 (8 * g)) := by
  rw [isaacFillState, if_pos hg]

theorem isaacFillState_secondPass (seed : Vector Word 256) (g : Nat) :
    isaacFillState seed (32 + g + 1) = secondPassStep (isaacFillState seed (32 + g)) (BitVec.ofNat 8 (8 * g)) := by
  rw [isaacFillState, if_neg (by omega), Nat.add_sub_cancel_left]

theorem isaacFillMemory_eq (seed : Vector Word 256) : isaacFillMemory seed = (isaacFillState seed 64).2 := by
  have hfirst := foldl_groupStarts (firstPassStep seed) (isaacFillState seed) fun _ => isaacFillState_firstPass seed
  have hsecond := foldl_groupStarts secondPassStep (fun g => isaacFillState seed (32 + g))
    fun g _ => isaacFillState_secondPass seed g
  rw [isaacFillMemory, ← hsecond, ← hfirst]
  rfl

/-- The words added in group `g` are those at `8 g` to `8 g + 7` (R193). -/
theorem mixAdd_group (m : Mixers) (src : Vector Word 256) (g : Nat) :
    mixAdd m src (BitVec.ofNat 8 (8 * g)) =
      let w := fun k => rd src (BitVec.ofNat 8 (8 * g + k))
      { a := m.a + w 0, b := m.b + w 1, c := m.c + w 2, d := m.d + w 3,
        e := m.e + w 4, f := m.f + w 5, g := m.g + w 6, h := m.h + w 7 } := by
  simp only [mixAdd, BitVec.ofNat_add, BitVec.ofNat_eq_ofNat, BitVec.add_zero]

/-! The seed. -/

theorem wordAt_of_length_le {p : List Byte} {k : Nat} (h : p.length ≤ k) : wordAt p k = 0 := by
  have hbyte (j : Nat) (hj : k ≤ j) : p.getD j 0 = 0 := List.getD_eq_default p 0 (h.trans hj)
  rw [wordAt, hbyte k (by omega), hbyte (k + 1) (by omega), hbyte (k + 2) (by omega), hbyte (k + 3) (by omega)]
  rfl

/-- Zero bytes behind a string are what is read past its end. -/
theorem wordAt_append_replicate_zero (p : List Byte) (n k : Nat) :
    wordAt (p ++ List.replicate n 0) k = wordAt p k := by
  have hbyte (j : Nat) : (p ++ List.replicate n 0).getD j 0 = p.getD j 0 := by
    rcases Nat.lt_or_ge j p.length with h | h
    · exact List.getD_append _ _ _ _ h
    · rw [List.getD_append_right _ _ _ _ h, List.getD_eq_default _ _ h, List.getD_eq_getElem?_getD,
        List.getElem?_getD_replicate_default_eq]
  simp only [wordAt, hbyte]

/-- R192: word `k` of a seed of whole words; past the end of the seed it is 0. -/
theorem rd_isaacSeed {seed : List Byte} (h : seed.length % 4 = 0) (k : Byte) :
    rd (isaacSeed seed) k = wordAt seed (4 * k.toNat) := by
  rw [isaacSeed, rd_fill256]
  rcases Nat.lt_or_ge (4 * k.toNat) seed.length with hin | hout
  · exact wordsLe_getD seed k.toNat (by omega)
  · rw [wordAt_of_length_le hout]
    exact List.getD_eq_default _ _ (by rw [wordsLe_length]; omega)

/-- R192: a seed followed by zero bytes is the seed alone. -/
theorem isaacSeed_append_replicate_zero {seed : List Byte} {n : Nat} (hseed : seed.length % 4 = 0) (hn : n % 4 = 0) :
    isaacSeed (seed ++ List.replicate n 0) = isaacSeed seed := by
  have hlen : (seed ++ List.replicate n 0).length % 4 = 0 := by
    rw [List.length_append, List.length_replicate]
    omega
  apply rd_ext
  intro k
  rw [rd_isaacSeed hlen, rd_isaacSeed hseed, wordAt_append_replicate_zero]

/-- The generation of `ISAAC_INIT` does not see the countdown, so it may be set after it (R192, R193). -/
theorem isaacFresh_eq (seed : List Byte) :
    isaacFresh seed =
      { isaacGenerate { MM := isaacFillMemory (isaacSeed seed), RSL := isaacSeed seed, AA := 0, BB := 0, CC := 0,
                        CNT := 0, OBUF := [] } with CNT := 256, OBUF := [] } := by
  rw [← isaacGenerate_with]
  rfl

@[simp] theorem isaacFresh_cc (seed : List Byte) : (isaacFresh seed).CC = 1 := by simp [isaacFresh]

/-! The generator. -/

/-- The context before index `n` of a generation (R194). -/
def isaacGenState (c : IsaacCtx) (n : Nat) : IsaacCtx :=
  loopTo isaacGenStep { c with CC := c.CC + 1, BB := c.BB + (c.CC + 1) } n

theorem isaacGenState_zero (c : IsaacCtx) :
    isaacGenState c 0 = { c with CC := c.CC + 1, BB := c.BB + (c.CC + 1) } := rfl

theorem isaacGenState_succ (c : IsaacCtx) (n : Nat) :
    isaacGenState c (n + 1) = isaacGenStep (isaacGenState c n) (BitVec.ofNat 8 n) := rfl

theorem isaacGenerate_eq (c : IsaacCtx) : isaacGenerate c = isaacGenState c 256 := by
  rw [isaacGenerate, foldl_indices256, isaacGenState]

/-- The shift of index `n` goes by `n mod 4`. -/
theorem isaacShift_ofNat (n : Nat) (aa : Word) :
    isaacShift (BitVec.ofNat 8 n) aa =
      if n % 4 = 0 then aa ^^^ (aa <<< 13) else if n % 4 = 1 then aa ^^^ (aa >>> 6)
      else if n % 4 = 2 then aa ^^^ (aa <<< 2) else aa ^^^ (aa >>> 16) := by
  have hmod : (BitVec.ofNat 8 n).toNat % 4 = n % 4 := by
    rw [BitVec.toNat_ofNat]
    omega
  have hlt : n % 4 < 4 := Nat.mod_lt n (by decide)
  rw [isaacShift, hmod]
  generalize n % 4 = r at hlt
  interval_cases r <;> rfl

/-- The word half-way round from index `n`. -/
theorem ofNat_add_half (n : Nat) : (BitVec.ofNat 8 n + 128 : Byte) = BitVec.ofNat 8 ((n + 128) % 256) := by
  apply BitVec.eq_of_toNat_eq
  simp

/-- One index of the generator, with the two memory reads by their bit fields (R194). -/
theorem isaacGenStep_eq (c : IsaacCtx) (n : Nat) :
    let i : Byte := BitVec.ofNat 8 n
    let x := rd c.MM i
    let s := if n % 4 = 0 then c.AA ^^^ (c.AA <<< 13)
      else if n % 4 = 1 then c.AA ^^^ (c.AA >>> 6)
      else if n % 4 = 2 then c.AA ^^^ (c.AA <<< 2)
      else c.AA ^^^ (c.AA >>> 16)
    let aa := rd c.MM (BitVec.ofNat 8 ((n + 128) % 256)) + s
    let y := rd c.MM (x.extractLsb' 2 8) + aa + c.BB
    let bb := rd (wr c.MM i y) (y.extractLsb' 10 8) + x
    isaacGenStep c i = { c with MM := wr c.MM i y, RSL := wr c.RSL i bb, AA := aa, BB := bb } := by
  simp only [isaacGenStep, isaacShift_ofNat, ofNat_add_half, BitVec.setWidth_ushiftRight_eq_extractLsb]

/-! The draw and the delivery. -/

/-- R195: with no word left a block is generated, and its first word is taken. -/
theorem isaacDraw_of_none_left {c : IsaacCtx} (h : c.CNT = 0) :
    isaacDraw c = (rd (isaacGenerate c).RSL 0, { isaacGenerate c with CNT := 255 }) := by
  rw [isaacDraw, if_pos h]
  rfl

/-- R195: with words left the next one is taken. -/
theorem isaacDraw_of_left {c : IsaacCtx} (h : c.CNT ≠ 0) :
    isaacDraw c =
      (rd c.RSL (BitVec.ofNat 8 (256 - c.CNT.toNat)), { c with CNT := BitVec.ofNat 9 (c.CNT.toNat - 1) }) := by
  have hcnt : c.CNT - 1 = BitVec.ofNat 9 (c.CNT.toNat - 1) := by bv_omega
  have hindex : 255 - (c.CNT - 1).toNat = 256 - c.CNT.toNat := by bv_omega
  rw [isaacDraw, if_neg h]
  simp only [drawIndex]
  rw [hindex, hcnt]

/-- R196: a waiting byte is delivered and removed. -/
theorem isaacByte_of_waiting {c : IsaacCtx} {b : Byte} {bs : List Byte} (h : c.OBUF = b :: bs) :
    isaacByte c = (b, { c with OBUF := bs }) := by
  simp [isaacByte, h]

/-- R196: with no byte waiting a word is drawn; its first byte is delivered and the other three wait. -/
theorem isaacByte_of_empty {c : IsaacCtx} (h : c.OBUF = []) :
    isaacByte c = (byteOf (isaacDraw c).1 0,
      { (isaacDraw c).2 with
        OBUF := [byteOf (isaacDraw c).1 1, byteOf (isaacDraw c).1 2, byteOf (isaacDraw c).1 3] }) := by
  simp [isaacByte, h, bytesLe32]

/-! The outcomes of the ISAAC commands, said once. -/

/-- R197: a legal seed. -/
theorem exec_isaacInit_of_legal (s : State) {seed : List Byte} (hmax : seed.length ≤ 1024)
    (hwords : seed.length % 4 = 0) :
    exec (.isaacInit 0 0 seed) s = .next (s.answered (.isaac (isaacFresh seed)) .ok []) := by
  simp only [exec, execIsaacInit, argZero_zero, operandZero_zero, isaacSeedLength_eq_none.mpr ⟨hmax, hwords⟩,
    guarded_none, guarded_nil]
  rfl

/-- R197, R243: a seed of any other length. -/
theorem exec_isaacInit_of_illegal (s : State) {seed : List Byte} (h : 1024 < seed.length ∨ seed.length % 4 ≠ 0) :
    exec (.isaacInit 0 0 seed) s = .next (s.failed .invalidSeed) := by
  have hcheck : some .invalidSeed = isaacSeedLength seed.length := some_eq_isaacSeedLength.mpr ⟨h, rfl⟩
  simp only [exec, execIsaacInit, argZero_zero, operandZero_zero, ← hcheck, guarded_none, guarded_some]
  rfl

/-- R198: the bytes from a live context. -/
theorem exec_isaacNext_of_live {s : State} {c : IsaacCtx} (len : BitVec 16) (h : s.ctx = .isaac c) :
    exec (.isaacNext 0 len 0) s
      = .next (s.answered (.isaac (isaacNextCtx^[len.toNat] c)) .ok (isaacBytes len.toNat c).1) := by
  rw [← isaacBytes_ctx]
  simp only [exec, execIsaacNext, argZero_zero, operandZero_zero, guarded_none, guarded_nil, h, onIsaac_isaac]
  rfl

end Sys2Proof.Machine
end

section
/-! Proofs about the ISAAC algorithm and its commands (O52 to O58). -/

namespace Sys2Proof.Machine

/-- Settles O52: the variables and the memory before each group are those of the fill's two loops. -/
theorem isaacMemoryIsFilledInTwoPasses : Obligations.IsaacMemoryIsFilledInTwoPasses := by
  refine ⟨fun _ _ _ _ _ _ _ _ => rfl, fun seed => ?_⟩
  intro z add stored
  have hadd (m : Mixers) (src : Vector Word 256) (g : Nat) : mixAdd m src (BitVec.ofNat 8 (8 * g)) = add m src g :=
    mixAdd_group m src g
  refine ⟨fun n => (isaacFillState seed n).1, fun n => (isaacFillState seed n).2, rfl, fun g hg => ?_,
    isaacFillMemory_eq seed⟩
  simp only [isaacFillState_firstPass seed hg, isaacFillState_secondPass, firstPassStep, secondPassStep, hadd]
  exact ⟨trivial, rd_mixStore _ _ g hg, trivial, rd_mixStore _ _ g hg⟩

/-- Settles O53: the contexts are those of the loop before each index. -/
theorem isaacGeneratorFollowsTheLoop : Obligations.IsaacGeneratorFollowsTheLoop := by
  intro c
  refine ⟨isaacGenState c, isaacGenState_zero c, fun n _ => ?_, isaacGenerate_eq c⟩
  rw [isaacGenState_succ, isaacGenStep_eq]
  exact ⟨rfl, rfl, rfl, rfl, rfl, rfl, rfl⟩

/-- Settles O54: the two outcomes of the length check, and the seed word by word. -/
theorem isaacInitSeedsTheGenerator : Obligations.IsaacInitSeedsTheGenerator := by
  intro s seed
  refine ⟨fun hmax hwords => ⟨isaacFresh seed, isaacSeed seed, fun k => ?_, isaacFresh_eq seed, isaacFresh_cc seed,
    exec_isaacInit_of_legal s hmax hwords⟩, exec_isaacInit_of_illegal s⟩
  rw [rd_isaacSeed hwords]
  split
  · rfl
  · next hout => exact wordAt_of_length_le (Nat.le_of_not_lt hout)

/-- Settles O55: both seeds are legal and have the same words. -/
theorem isaacShortSeedIsZeroFilled : Obligations.IsaacShortSeedIsZeroFilled := by
  intro s seed n hseed hn hmax
  have hlen : (seed ++ List.replicate n 0).length = seed.length + n := by simp
  rw [exec_isaacInit_of_legal s (by omega) (by omega), exec_isaacInit_of_legal s (by omega) hseed,
    isaacFresh, isaacSeed_append_replicate_zero hseed hn, isaacFresh]

/-- Settles O56: the two cases of the countdown. -/
theorem isaacDrawTakesTheNextWord : Obligations.IsaacDrawTakesTheNextWord := by
  intro c _
  refine ⟨fun hnone => ?_, fun hleft => ?_⟩
  · rw [isaacDraw_of_none_left hnone]
    exact ⟨rfl, rfl⟩
  · rw [isaacDraw_of_left hleft]
    exact ⟨rfl, rfl⟩

/-- Settles O57: byte `k` is that of the `k`-th delivery, and a delivery goes by its queue. -/
theorem isaacNextDeliversTheBytes : Obligations.IsaacNextDeliversTheBytes :=
  fun _ c len hctx =>
    ⟨⟨_, isaacBytes_length len.toNat c, isaacBytes_getD len.toNat c, exec_isaacNext_of_live len hctx⟩,
      fun _ _ => isaacByte_of_waiting, isaacByte_of_empty⟩

/-- Settles O58: the second command starts from the context that the first one leaves. -/
theorem isaacRequestsMaySplitAnywhere : Obligations.IsaacRequestsMaySplitAnywhere := by
  intro s c n1 n2 hctx hsum
  refine ⟨_, _, _, _, exec_isaacNext_of_live n1 hctx, exec_isaacNext_of_live n2 rfl, ?_⟩
  rw [exec_isaacNext_of_live (n1 + n2) hctx, BitVec.toNat_add_of_lt hsum, isaacBytes_add, isaacBytes_ctx,
    Nat.add_comm, Function.iterate_add_apply]

end Sys2Proof.Machine
end

section
/-! SUPPORT. The ISAAC sequence by draws and generations (R195, R196, R199): four deliveries are one draw, and 256 draws
use up one generation. -/

namespace Sys2Proof.Machine

/-- The context after one draw. -/
abbrev isaacDrawNext (c : IsaacCtx) : IsaacCtx := (isaacDraw c).2

/-- A draw leaves the queue alone. -/
@[simp] theorem isaacDraw_obuf (c : IsaacCtx) : (isaacDraw c).2.OBUF = c.OBUF := by
  by_cases h : c.CNT = 0
  · simp only [isaacDraw_of_none_left h, isaacGenerate_obuf]
  · rw [isaacDraw_of_left h]

theorem isaacDrawNext_iterate_obuf (n : Nat) (c : IsaacCtx) : (isaacDrawNext^[n] c).OBUF = c.OBUF := by
  induction n generalizing c with
  | zero => rfl
  | succ n ih => rw [Function.iterate_succ_apply, ih, isaacDraw_obuf]

/-! Deliveries and draws. -/

theorem isaacByte_with_waiting (c : IsaacCtx) (b : Byte) (bs : List Byte) :
    isaacByte { c with OBUF := b :: bs } = (b, { c with OBUF := bs }) := isaacByte_of_waiting rfl

/-- The deliveries from an empty queue: the four bytes of one drawn word, in order (R196). -/
theorem isaacByte_of_draw {c : IsaacCtx} (h : c.OBUF = []) {k : Nat} (hk : k < 4) :
    (isaacByte (isaacNextCtx^[k] c)).1 = byteOf (isaacDraw c).1 k := by
  have hdraw := isaacByte_of_empty h
  interval_cases k
  · rw [Function.iterate_zero_apply, hdraw]
  all_goals
    simp only [Function.iterate_succ_apply, Function.iterate_zero_apply, isaacNextCtx, hdraw, isaacByte_with_waiting]

/-- Four deliveries from an empty queue are one draw, and the queue is empty again (R196). -/
theorem isaacNextCtx_four {c : IsaacCtx} (h : c.OBUF = []) : isaacNextCtx^[4] c = isaacDrawNext c := by
  have hqueue : (isaacDraw c).2.OBUF = [] := by rw [isaacDraw_obuf, h]
  simp only [Function.iterate_succ_apply, Function.iterate_zero_apply, isaacNextCtx, isaacByte_of_empty h,
    isaacByte_with_waiting]
  rw [← hqueue]

theorem isaacNextCtx_four_mul {c : IsaacCtx} (h : c.OBUF = []) (n : Nat) :
    isaacNextCtx^[4 * n] c = isaacDrawNext^[n] c := by
  induction n with
  | zero => rfl
  | succ n ih =>
    have hqueue : (isaacDrawNext^[n] c).OBUF = [] := by rw [isaacDrawNext_iterate_obuf, h]
    rw [Nat.mul_succ, Nat.add_comm, Function.iterate_add_apply, ih, isaacNextCtx_four hqueue,
      Function.iterate_succ_apply']

/-- Byte `t` of the sequence is byte `t mod 4` of draw `t div 4`. -/
theorem isaacByte_iterate {c : IsaacCtx} (h : c.OBUF = []) (t : Nat) :
    (isaacByte (isaacNextCtx^[t] c)).1 = byteOf (isaacDraw (isaacDrawNext^[t / 4] c)).1 (t % 4) := by
  have hqueue : (isaacDrawNext^[t / 4] c).OBUF = [] := by rw [isaacDrawNext_iterate_obuf, h]
  rw [← isaacByte_of_draw hqueue (Nat.mod_lt t (by decide)), ← isaacNextCtx_four_mul h,
    ← Function.iterate_add_apply, Nat.mod_add_div]

/-! Draws and generations. -/

/-- From a full countdown, up to 256 draws only count down. -/
theorem isaacDrawNext_iterate_of_full {c : IsaacCtx} (h : c.CNT = 256) {r : Nat} (hr : r ≤ 256) :
    isaacDrawNext^[r] c = { c with CNT := BitVec.ofNat 9 (256 - r) } := by
  induction r with
  | zero => exact congrArg (fun n => { c with CNT := n }) h
  | succ r ih =>
    have hleft : BitVec.ofNat 9 (256 - r) ≠ 0 := by bv_omega
    have hcount : (BitVec.ofNat 9 (256 - r)).toNat - 1 = 256 - (r + 1) := by bv_omega
    rw [Function.iterate_succ_apply', ih (by omega), isaacDrawNext, isaacDraw_of_left hleft]
    simp only [hcount]

/-- Draw `r < 256` from a full countdown is word `r` of the block that stands. -/
theorem isaacDraw_word_of_full {c : IsaacCtx} (h : c.CNT = 256) {r : Nat} (hr : r < 256) :
    (isaacDraw (isaacDrawNext^[r] c)).1 = rd c.RSL (BitVec.ofNat 8 r) := by
  have hleft : BitVec.ofNat 9 (256 - r) ≠ 0 := by bv_omega
  have hindex : 256 - (BitVec.ofNat 9 (256 - r)).toNat = r := by bv_omega
  rw [isaacDrawNext_iterate_of_full h (by omega), isaacDraw_of_left hleft]
  simp only [hindex]

theorem isaacGenerate_with_cnt (c : IsaacCtx) (n : BitVec 9) :
    isaacGenerate { c with CNT := n } = { isaacGenerate c with CNT := n } := by
  have h := isaacGenerate_with c n c.OBUF
  simp only [h, isaacGenerate_obuf]

/-- With no word left a draw is one from a new block with a full countdown (R195). -/
theorem isaacDraw_none_left_eq_full {c : IsaacCtx} (h : c.CNT = 256) :
    isaacDraw { c with CNT := 0 } = isaacDraw (isaacGenerate c) := by
  have hfull : (isaacGenerate c).CNT = 256 := by rw [isaacGenerate_cnt, h]
  have hleft : (isaacGenerate c).CNT ≠ 0 := by rw [hfull]; decide
  rw [isaacDraw_of_none_left rfl, isaacGenerate_with_cnt, isaacDraw_of_left hleft, hfull]
  generalize isaacGenerate c = d
  rfl

/-- From a full countdown, the draws after the first 256 are those of the next generation. -/
theorem isaacDraw_next_generation {c : IsaacCtx} (h : c.CNT = 256) (n : Nat) :
    isaacDraw (isaacDrawNext^[n + 256] c) = isaacDraw (isaacDrawNext^[n] (isaacGenerate c)) := by
  have hused : isaacDraw (isaacDrawNext^[256] c) = isaacDraw (isaacGenerate c) := by
    rw [isaacDrawNext_iterate_of_full h (Nat.le_refl 256)]
    exact isaacDraw_none_left_eq_full h
  rw [Function.iterate_add_apply]
  cases n with
  | zero => exact hused
  | succ n => rw [Function.iterate_succ_apply _ n, Function.iterate_succ_apply _ n, isaacDrawNext, hused]

/-- Draw `256 j + r` from a full countdown is draw `r` of generation `j` (R195, R199). -/
theorem isaacDraw_of_generation {c : IsaacCtx} (h : c.CNT = 256) (r j : Nat) :
    isaacDraw (isaacDrawNext^[r + 256 * j] c) = isaacDraw (isaacDrawNext^[r] (isaacGenerate^[j] c)) := by
  induction j generalizing c with
  | zero => rfl
  | succ j ih =>
    rw [Nat.mul_succ, ← Nat.add_assoc, isaacDraw_next_generation h, ih (by rw [isaacGenerate_cnt, h]),
      Function.iterate_succ_apply]

theorem isaacGenerate_iterate_cnt (c : IsaacCtx) (j : Nat) : (isaacGenerate^[j] c).CNT = c.CNT := by
  induction j generalizing c with
  | zero => rfl
  | succ j ih => rw [Function.iterate_succ_apply, ih, isaacGenerate_cnt]

/-- Draw `n` from a full countdown is word `n mod 256` of generation `n div 256` (R199). -/
theorem isaacDraw_word_iterate {c : IsaacCtx} (h : c.CNT = 256) (n : Nat) :
    (isaacDraw (isaacDrawNext^[n] c)).1 = rd (isaacGenerate^[n / 256] c).RSL (BitVec.ofNat 8 n) := by
  have hindex : BitVec.ofNat 8 (n % 256) = BitVec.ofNat 8 n := by bv_omega
  have hfull : (isaacGenerate^[n / 256] c).CNT = 256 := by rw [isaacGenerate_iterate_cnt, h]
  have hdraw := isaacDraw_of_generation h (n % 256) (n / 256)
  rw [Nat.mod_add_div] at hdraw
  rw [hdraw, isaacDraw_word_of_full hfull (Nat.mod_lt n (by decide)), hindex]

end Sys2Proof.Machine
end

section
/-! Proof of the place of every byte of the ISAAC sequence (O59). -/

namespace Sys2Proof.Machine

/-- Settles O59: byte `t` is of draw `t div 4`, which is word `(t div 4) mod 256` of generation `t div 1024`. -/
theorem isaacByteNumberSelectsItsWord : Obligations.IsaacByteNumberSelectsItsWord := by
  intro c t hfull hempty
  have hgeneration : t / 4 / 256 = t / 1024 := Nat.div_div_eq_div_mul t 4 256
  rw [← hgeneration, ← isaacDraw_word_iterate hfull]
  exact isaacByte_iterate hempty t

end Sys2Proof.Machine
end

section
/-! SUPPORT. The status of every command (R220): a check chain answers the status of its first failing check, and the
checks of each command are those that `expectedStatus` names. -/

namespace Sys2Proof.Machine

/-! Each check as a choice of status: the rest of the chain's when it passes, its own when it fails. -/

section
variable (st : Status)

@[simp] theorem argZero_getD (a : Byte) : (argZero a).getD st = if a = 0 then st else .errFormat :=
  apply_ite (Option.getD · st) _ _ _
@[simp] theorem operandZero_getD (w : Word) : (operandZero w).getD st = if w = 0 then st else .errFormat :=
  apply_ite (Option.getD · st) _ _ _
@[simp] theorem lenZero_getD (n : BitVec 16) : (lenZero n).getD st = if n = 0 then st else .errFormat :=
  apply_ite (Option.getD · st) _ _ _
@[simp] theorem wholeWords_getD (n : Nat) : (wholeWords n).getD st = if n % 4 = 0 then st else .errFormat :=
  apply_ite (Option.getD · st) _ _ _
@[simp] theorem arc4KeyLength_getD (n : Nat) :
    (arc4KeyLength n).getD st = if n < 5 ∨ 256 < n then .invalidKey else st := apply_ite (Option.getD · st) _ _ _
@[simp] theorem salsaKeyLength_getD (n : Nat) :
    (salsaKeyLength n).getD st = if n ≠ 24 ∧ n ≠ 40 then .invalidKey else st := apply_ite (Option.getD · st) _ _ _
@[simp] theorem salsaRoundCount_getD (r : Byte) :
    (salsaRoundCount r).getD st = if r ≠ 8 ∧ r ≠ 12 ∧ r ≠ 20 then .invalidParameter else st :=
  apply_ite (Option.getD · st) _ _ _
@[simp] theorem xxteaKeyLength_getD (n : Nat) :
    (xxteaKeyLength n).getD st = if n ≠ 16 then .invalidKey else st := apply_ite (Option.getD · st) _ _ _
@[simp] theorem isaacSeedLength_getD (n : Nat) :
    (isaacSeedLength n).getD st = if 1024 < n ∨ n % 4 ≠ 0 then .invalidSeed else st :=
  apply_ite (Option.getD · st) _ _ _

end

/-- A check chain answers the status of its first failing check, or that of what it goes on with. -/
theorem guarded_status (l : List (Option Status)) (c : Ctx) (k : Ctx × Response) :
    (guarded l c k).2.status = l.foldr Option.getD k.2.status := by
  induction l with
  | nil => rfl
  | cons o l ih =>
    cases o with
    | none => exact ih
    | some st => rfl

/-! The phase check before a continuation that completes the command. -/

section
variable (c : Ctx)

@[simp] theorem onArc4_complete_status (post : Arc4Ctx → Ctx) (out : Arc4Ctx → List Byte) :
    (onArc4 c fun a => complete (post a) (out a)).2.status = if c.alg = .arc4 then .ok else .errPhase := by
  cases c <;> rfl
@[simp] theorem onSalsa_complete_status (post : SalsaCtx → Ctx) (out : SalsaCtx → List Byte) :
    (onSalsa c fun a => complete (post a) (out a)).2.status = if c.alg = .salsa20 then .ok else .errPhase := by
  cases c <;> rfl
@[simp] theorem onXxtea_complete_status (post : XxteaCtx → Ctx) (out : XxteaCtx → List Byte) :
    (onXxtea c fun a => complete (post a) (out a)).2.status = if c.alg = .xxtea then .ok else .errPhase := by
  cases c <;> rfl
@[simp] theorem onIsaac_complete_status (post : IsaacCtx → Ctx) (out : IsaacCtx → List Byte) :
    (onIsaac c fun a => complete (post a) (out a)).2.status = if c.alg = .isaac then .ok else .errPhase := by
  cases c <;> rfl

end

/-- The checks of a command, in their order, are those of R220. The length checks of the initialisations read the
payload's length, which a command that the port can carry holds in `LEN` (R91). -/
theorem blockStep_status (i : Instr) (c : Ctx) (hw : i.WellFormed) :
    (blockStep i c).2.status = expectedStatus c.alg i := by
  cases i with
  | status | discard | arc4Xfrm | arc4Ks | salsaXfrm | xxteaEnc | xxteaDec | isaacNext =>
    refine (guarded_status _ _ _).trans ?_
    simp [expectedStatus, seedError, parameterError, Instr.op, Instr.arg, Instr.len, Instr.operand, ite_or]
  | arc4Init | salsaInit | xxteaInit | isaacInit =>
    refine (guarded_status _ _ _).trans ?_
    simp only [Instr.WellFormed, Instr.payload] at hw
    simp [expectedStatus, seedError, parameterError, Instr.op, Instr.arg, Instr.len, Instr.operand, ite_or,
      Nat.mod_eq_of_lt hw]

end Sys2Proof.Machine
end

section
/-! SUPPORT. The outcome of a command in the words of the statements: it completes exactly when `Completes` allows it,
and when it fails nothing but the response is new (R225). -/

namespace Sys2Proof.Machine

theorem answered_inj {s : State} {c c' : Ctx} {st st' : Status} {p p' : List Byte} :
    s.answered c st p = s.answered c' st' p' ↔ c = c' ∧ st = st' ∧ p = p' := by
  simp [State.answered]

/-- The two outcomes of a command (R220, R225). -/
theorem exec_cases {i : Instr} {s : State} {c : Ctx} {st : Status} {p : List Byte}
    (h : exec i s = .next (s.answered c st p)) :
    (st ≠ .ok ∧ c = s.ctx ∧ p = []) ∨ (st = .ok ∧ Completes s.ctx i c p) := by
  rw [exec_eq_answered, Host.Outcome.next.injEq, answered_inj] at h
  obtain ⟨rfl, rfl, rfl⟩ := h
  rcases blockStep_ends i s.ctx with ⟨st, hst, hfail⟩ | ⟨c', p, hdone, hok⟩
  · rw [hfail]
    exact .inl ⟨hst, rfl, rfl⟩
  · rw [hok]
    exact .inr ⟨rfl, hdone⟩

/-- A command is answered with an error exactly when R220 gives it that status, and then nothing else changes (R225). -/
theorem exec_eq_failed_iff {i : Instr} {st : Status} (s : State) (hw : i.WellFormed) (hst : st ≠ .ok) :
    exec i s = .next (s.failed st) ↔ expectedStatus s.ctx.alg i = st := by
  constructor
  · intro h
    rw [exec_eq_answered, Host.Outcome.next.injEq, State.failed, answered_inj] at h
    obtain ⟨-, hstatus, -⟩ := h
    rw [← blockStep_status i s.ctx hw, hstatus]
  · rintro rfl
    have hexec := exec_eq_answered i s
    rw [blockStep_status i s.ctx hw] at hexec
    rcases exec_cases hexec with ⟨-, hctx, hp⟩ | ⟨hok, -⟩
    · rw [hexec, hctx, hp, State.failed]
    · exact absurd hok hst

/-- The format checks come first (R250). -/
theorem exec_of_formatError {i : Instr} (s : State) (hw : i.WellFormed) (h : formatError i) :
    exec i s = .next (s.failed .errFormat) := (exec_eq_failed_iff s hw (by decide)).mpr (if_pos h)

/-- `STATUS` and `DISCARD` need all three fields to be 0 (R100). -/
theorem formatError_of_control {i : Instr} (hi : i.op = .status ∨ i.op = .discard)
    (h : i.arg ≠ 0 ∨ i.len ≠ 0 ∨ i.operand ≠ 0) : formatError i := by
  rcases h with harg | hlen | hoperand
  · exact .inl ⟨harg, by rcases hi with hi | hi <;> simp [hi]⟩
  · exact .inr (.inr (.inl ⟨hi, hlen⟩))
  · exact .inr (.inl ⟨hoperand, by rcases hi with hi | hi <;> simp [hi]⟩)

theorem guarded_of_forall_eq_none {l : List (Option Status)} {c : Ctx} {k : Ctx × Response} (h : ∀ o ∈ l, o = none) :
    guarded l c k = k := by
  rcases guarded_cases l c k with ⟨st, hst, -⟩ | ⟨-, hk⟩
  · cases h _ hst
  · exact hk

/-- What `Completes` allows is what the command does. -/
theorem blockStep_of_completes {c c' : Ctx} {i : Instr} {p : List Byte} (h : Completes c i c' p) :
    blockStep i c = complete c' p := by
  cases h with
  | status | discard => rfl
  | arc4Init skip key hkey => exact guarded_of_forall_eq_none (by simpa using hkey)
  | salsaInit rounds keyNonce hkey hrounds => exact guarded_of_forall_eq_none (by simpa using ⟨hkey, hrounds⟩)
  | xxteaInit key hkey => exact guarded_of_forall_eq_none (by simpa using hkey)
  | isaacInit seed hseed => exact guarded_of_forall_eq_none (by simpa using hseed)
  | arc4Xfrm _ _ hc | arc4Ks _ _ hc | salsaXfrm _ _ hc | isaacNext _ _ hc =>
    subst hc
    rfl
  | xxteaEnc a data hc hdata | xxteaDec a data hc hdata =>
    subst hc
    exact guarded_of_forall_eq_none (by simpa using hdata)

theorem exec_of_completes {i : Instr} {s : State} {c : Ctx} {p : List Byte} (h : Completes s.ctx i c p) :
    exec i s = .next (s.answered c .ok p) := by
  rw [exec_eq_answer, blockStep_of_completes h]
  rfl

/-- `STATUS` from a context, in terms of that context (R222). -/
theorem exec_status_of_ctx {s : State} {c : Ctx} (h : s.ctx = c) :
    exec (.status 0 0 0) s = .next (s.answered s.ctx .ok [c.alg.code.setWidth 8, statusRounds c]) :=
  h ▸ exec_of_completes .status

/-- The tag after a completed command (R221). -/
theorem Completes.alg {c c' : Ctx} {i : Instr} {p : List Byte} (h : Completes c i c' p) :
    c'.alg = tagAfter c.alg i.op := by
  cases h with
  | status | discard | arc4Init | salsaInit | xxteaInit | xxteaEnc | xxteaDec | isaacInit => rfl
  | arc4Xfrm _ _ hc | arc4Ks _ _ hc | salsaXfrm _ _ hc | isaacNext _ _ hc =>
    subst hc
    rfl

/-- An initialisation sends no payload, and what it builds does not depend on the old context (R31, R224). -/
theorem Completes.of_init {c c' : Ctx} {i : Instr} {p : List Byte} (h : Completes c i c' p)
    (hinit : i.op ∈ [Op.arc4Init, Op.salsaInit, Op.xxteaInit, Op.isaacInit]) (d : Ctx) :
    p = [] ∧ Completes d i c' [] := by
  cases h with
  | arc4Init skip key hkey => exact ⟨rfl, .arc4Init skip key hkey⟩
  | salsaInit rounds keyNonce hkey hrounds => exact ⟨rfl, .salsaInit rounds keyNonce hkey hrounds⟩
  | xxteaInit key hkey => exact ⟨rfl, .xxteaInit key hkey⟩
  | isaacInit seed hseed => exact ⟨rfl, .isaacInit seed hseed⟩
  | _ => simp [Instr.op] at hinit

end Sys2Proof.Machine
end

section
/-! Proofs about the control of all commands (O15, O16, O20, O21) and the control commands (O25, O26). -/

namespace Sys2Proof.Machine

/-- Settles O15: the answer of R9 has the status that its checks give. -/
theorem statusFollowsTheCheckOrder : Obligations.StatusFollowsTheCheckOrder := by
  intro i s hw
  rw [← blockStep_status i s.ctx hw]
  exact ⟨_, _, exec_eq_answered i s⟩

/-- Settles O16: only a completed command has anything but a response. -/
theorem failedCommandChangesNothing : Obligations.FailedCommandChangesNothing := by
  intro i s c st p hexec hst
  rcases exec_cases hexec with ⟨-, hfail⟩ | ⟨hok, -⟩
  · exact hfail
  · exact absurd hok hst

/-- Settles O20: a failed command keeps the context, and a completed one follows the table. -/
theorem tagFollowsTheTransitionTable : Obligations.TagFollowsTheTransitionTable := by
  intro i s c st p hexec
  rcases exec_cases hexec with ⟨hst, hctx, -⟩ | ⟨hok, hdone⟩
  · rw [if_neg hst, hctx]
  · rw [if_pos hok, hdone.alg]

/-- Settles O21: the same initialisation completes from the other context. -/
theorem initialisationForgetsTheOldContext : Obligations.InitialisationForgetsTheOldContext := by
  intro i s s' hinit c p hexec
  rcases exec_cases hexec with ⟨hst, -⟩ | ⟨-, hdone⟩
  · exact absurd rfl hst
  · obtain ⟨hp, hdone'⟩ := hdone.of_init hinit s'.ctx
    exact ⟨hp, exec_of_completes hdone'⟩

/-- Settles O25: the two bytes of each context, and a field that is not 0 fails the format check. -/
theorem statusReportsTagAndRounds : Obligations.StatusReportsTagAndRounds := fun s =>
  ⟨fun _ => exec_status_of_ctx, exec_status_of_ctx, fun _ => exec_status_of_ctx, fun _ => exec_status_of_ctx,
    fun _ => exec_status_of_ctx, fun _ _ _ h =>
      exec_of_formatError s (Nat.succ_pos _) (formatError_of_control (.inl rfl) h)⟩

/-- Settles O26: `DISCARD` completes from every context, and a field that is not 0 fails the format check. -/
theorem discardEndsTheContext : Obligations.DiscardEndsTheContext := fun s =>
  ⟨exec_of_completes .discard, fun _ _ _ h =>
    exec_of_formatError s (Nat.succ_pos _) (formatError_of_control (.inr rfl) h)⟩

end Sys2Proof.Machine
end

section
/-! SUPPORT. When a command has each error status (R220, R250). The tests of step 4 belong to initialisations, which have
no phase, so their conditions do not name the phase check. -/

namespace Sys2Proof.Machine

/-- No initialisation belongs to a phase (R245). -/
theorem not_phaseError_of_init {i : Instr} (hinit : i.op ∈ [Op.arc4Init, Op.salsaInit, Op.xxteaInit, Op.isaacInit])
    (alg : Alg) : ¬ phaseError alg i := by
  simp only [List.mem_cons, List.not_mem_nil, or_false] at hinit
  rcases hinit with h | h | h | h <;> simp [phaseError, h]

theorem keyError.not_phaseError {i : Instr} (h : keyError i) (alg : Alg) : ¬ phaseError alg i := by
  rcases h with ⟨hop, -⟩ | ⟨hop, -⟩ | ⟨hop, -⟩ <;> exact not_phaseError_of_init (by simp [hop]) alg

theorem seedError.not_phaseError {i : Instr} (h : seedError i) (alg : Alg) : ¬ phaseError alg i :=
  not_phaseError_of_init (by simp [h.1]) alg

theorem parameterError.not_phaseError {i : Instr} (h : parameterError i) (alg : Alg) : ¬ phaseError alg i :=
  not_phaseError_of_init (by simp [h.1]) alg

/-- A seed is no key (R241, R243). -/
theorem seedError.not_keyError {i : Instr} (h : seedError i) : ¬ keyError i := by simp [keyError, h.1]

/-- `SALSA_INIT` takes no seed (R242, R243). -/
theorem parameterError.not_seedError {i : Instr} (h : parameterError i) : ¬ seedError i := by simp [seedError, h.1]

section
variable (alg : Alg) (i : Instr)

theorem expectedStatus_eq_errFormat_iff : expectedStatus alg i = .errFormat ↔ formatError i := by
  simp only [expectedStatus, ite_eq_iff, reduceCtorEq, and_true, and_false, or_false]

theorem expectedStatus_eq_errPhase_iff :
    expectedStatus alg i = .errPhase ↔ ¬ formatError i ∧ phaseError alg i := by
  simp only [expectedStatus, ite_eq_iff, reduceCtorEq, and_true, and_false, or_false, false_or]

theorem expectedStatus_eq_invalidKey_iff :
    expectedStatus alg i = .invalidKey ↔ ¬ formatError i ∧ keyError i := by
  simp only [expectedStatus, ite_eq_iff, reduceCtorEq, and_true, and_false, or_false, false_or]
  exact and_congr_right fun _ => and_iff_right_of_imp (·.not_phaseError alg)

theorem expectedStatus_eq_invalidSeed_iff :
    expectedStatus alg i = .invalidSeed ↔ ¬ formatError i ∧ seedError i := by
  simp only [expectedStatus, ite_eq_iff, reduceCtorEq, and_true, and_false, or_false, false_or]
  exact and_congr_right fun _ =>
    ⟨fun ⟨_, _, hseed⟩ => hseed, fun hseed => ⟨hseed.not_phaseError alg, hseed.not_keyError, hseed⟩⟩

theorem expectedStatus_eq_invalidParameter_iff :
    expectedStatus alg i = .invalidParameter ↔ ¬ formatError i ∧ ¬ keyError i ∧ parameterError i := by
  simp only [expectedStatus, ite_eq_iff, reduceCtorEq, and_true, and_false, or_false, false_or]
  exact and_congr_right fun _ =>
    ⟨fun ⟨_, hkey, _, hparam⟩ => ⟨hkey, hparam⟩,
      fun ⟨hkey, hparam⟩ => ⟨hparam.not_phaseError alg, hkey, hparam.not_seedError, hparam⟩⟩

end

/-- An empty port gives the block nothing to take (R258). -/
@[simp] theorem fetch_nil : fetch [] = .idle := rfl

end Sys2Proof.Machine
end

section
/-! Proofs about the errors of a command (O17, O18, O19) and the idle step (O10). -/

namespace Sys2Proof.Machine

/-- Settles O17: the format checks are the first of the chain. -/
theorem formatErrorExactly : Obligations.FormatErrorExactly := fun i s hw =>
  (exec_eq_failed_iff s hw (by decide)).trans (expectedStatus_eq_errFormat_iff s.ctx.alg i)

/-- Settles O18: only the format checks come before the phase check. -/
theorem phaseErrorExactly : Obligations.PhaseErrorExactly := fun i s hw =>
  (exec_eq_failed_iff s hw (by decide)).trans (expectedStatus_eq_errPhase_iff s.ctx.alg i)

/-- Settles O19: an initialisation passes the phase check, and its tests of step 4 stand in the order of R250. -/
theorem keyMaterialErrorsExactly : Obligations.KeyMaterialErrorsExactly := fun i s hw =>
  ⟨(exec_eq_failed_iff s hw (by decide)).trans (expectedStatus_eq_invalidKey_iff s.ctx.alg i),
    (exec_eq_failed_iff s hw (by decide)).trans (expectedStatus_eq_invalidSeed_iff s.ctx.alg i),
    (exec_eq_failed_iff s hw (by decide)).trans (expectedStatus_eq_invalidParameter_iff s.ctx.alg i)⟩

/-- Settles O10: the block finds nothing at its port, which is its idle step. -/
theorem idleBlockKeepsItsState : Obligations.IdleBlockKeepsItsState := by
  intro s hport
  rw [step, hport, fetch_nil]

end Sys2Proof.Machine
end

section
/-! SUPPORT. The reset input at the port: it ends the bytes before it, and the block takes it after an incomplete part
of a command (R270, log entry 3). -/

namespace Sys2Proof.Machine

@[simp] theorem portBytes_reset (more : List PortEvent) : portBytes (.reset :: more) = [] := rfl
@[simp] theorem fromReset_reset (more : List PortEvent) : fromReset (.reset :: more) = .reset :: more := rfl

/-- A reset behind an incomplete part of a command is what the block takes, and the part is gone with it (R270). -/
theorem fetch_of_incomplete_reset {part : List Byte} (more : List PortEvent) (h : decode part = .incomplete) :
    fetch (sendBytes part ++ .reset :: more) = .reset more := by
  have hdec : decode (portBytes (sendBytes part ++ .reset :: more)) = .incomplete := by
    rw [portBytes_sendBytes, portBytes_reset, List.append_nil, h]
  rw [fetch, hdec, fromReset_sendBytes, fromReset_reset]

/-- A step that takes the reset input resets the block, on the port that is left. -/
theorem step_of_fetch_reset {s : State} {left : List PortEvent} (h : fetch s.port = .reset left) :
    step s = .next (hostReset { s with port := left }) := by
  rw [step, h]

end Sys2Proof.Machine
end

section
/-! Proofs about the reset input and the reset state (O11, O13) and the one refusal of a step (O12). -/

namespace Sys2Proof.Machine

/-- Settles O12: of the cases of a step, only the last refuses; each of the others breaks one of its conditions. -/
theorem stepRefusesOnlyAnUnfinishedCommand : Obligations.StepRefusesOnlyAnUnfinishedCommand := by
  intro s
  rcases step_cases s with ⟨i, rest, hdec, hstep⟩ | ⟨op, rest, hdec, hstep⟩ | ⟨e, rest, -, hreset, hstep⟩ |
    ⟨hport, hstep⟩ | ⟨hport, hdec, hreset, hstep⟩
  · exact .inr ⟨_, hstep.trans (exec_eq_next_after i _), by simp [hdec]⟩
  · exact .inr ⟨_, hstep, by simp [hdec]⟩
  · exact .inr ⟨_, hstep, by simp [hreset]⟩
  · exact .inr ⟨_, hstep, fun ⟨hne, _⟩ => hne hport⟩
  · exact .inl ⟨hstep, hport, hdec, hreset⟩

/-- Settles O11: the block takes the reset, and the part before it is gone. -/
theorem resetInputClearsTheContext : Obligations.ResetInputClearsTheContext := by
  intro s part more hdec hport
  have hfetch : fetch s.port = .reset more := by rw [hport, fetch_of_incomplete_reset more hdec]
  exact step_of_fetch_reset hfetch

/-- Settles O13: `DISCARD` completes from every context, and what it leaves is the context of the reset state. -/
theorem resetStateHoldsNothing : Obligations.ResetStateHoldsNothing :=
  ⟨reset_ctx, rfl, reset_port, reset_sent, fun _ => exec_of_completes .discard⟩

end Sys2Proof.Machine
end
